-- ==== Sys2Proof/Config.lean ====
section
/-! DEFINITION. The parameters of the hardware that an implementation fixes (00_scope.md R6). They are configuration,
not state (10_state.md R21). -/

namespace Sys2Proof.Config

/-- `XLEN`, the width in bits of a cell, of `rb`, of every operand and result (R6, decision D1).
DESIGN CHOICE (log 2): fixed at the spec's value; the spec also allows a greater one. -/
def xlen : Nat := 64

/-- `MEM_LIMIT`, the number of addressable cells (R6, 20_memory.md R62, decision D3); `none` is the spec's value, an
unbounded memory. `exec` and `step` are the machine at this value; the machine at any other is `execWith` and `stepWith`, which take
the limit as an argument. DESIGN CHOICE (log 3). -/
def memLimit : Option Nat := none

end Sys2Proof.Config
end

