-- ==== Sys2Proof/Word.lean ====
section
/-! DEFINITION. The word of the machine and its range (00_scope.md R6, R7), the addressing modes and the parameter of
an instruction (20_memory.md R58, 30_encoding.md R82, R86). -/

namespace Sys2Proof

/-- One memory cell, `rb`, one operand, one result: a signed integer of `XLEN` bits, read through `BitVec.toInt` (R6). -/
abbrev Word := BitVec 64

/-- `MININT` (R6). -/
def minInt : Int := -9223372036854775808

/-- `MAXINT` (R6). -/
def maxInt : Int := 9223372036854775807

/-- The greatest address, `MAXINT` as a natural number (20_memory.md R50). -/
def maxAddr : Nat := 9223372036854775807

/-- The integer is one of `MININT .. MAXINT` (R7). -/
def InWord (v : Int) : Prop := minInt ≤ v ∧ v ≤ maxInt

/-- `InWord` as a check; `negSucc n` is `-(n + 1)`, so that the greatest `n` is the same on both sides. It is written over `Nat`, not
over `Int`, so that the kernel never counts up to a bound (`fits_iff` says that it decides `InWord`). -/
def fits : Int → Bool
  | .ofNat n => decide (n ≤ maxAddr)
  | .negSucc n => decide (n ≤ maxAddr)

/-- The word that stands for an integer; used only for integers that are `InWord`. -/
abbrev Word.ofInt (v : Int) : Word := BitVec.ofInt 64 v

/-- The three parameter modes (30_encoding.md R82). -/
inductive Mode where
  | position
  | immediate
  | relative
  deriving DecidableEq, Repr

/-- An operand together with its mode (00_scope.md R11): the mode digit and the literal operand cell. -/
structure Param where
  mode : Mode
  lit : Word
  deriving DecidableEq, Repr

end Sys2Proof
end

