-- ==== Sys2Proof/Syntax.lean ====
section
/-! DEFINITION. The ten instructions (30_encoding.md R83), one constructor per row of the opcode table. The parameters
stand in the spec's order; the last one of `add`, `mul`, `lt`, `eq` and the one of `inp` are destinations (20_memory.md R60). -/

namespace Sys2Proof

/-- An instruction with its literal operands. `inp` is the table's IN and `out` its OUT. -/
inductive Instr where
  | add (p1 p2 p3 : Param)
  | mul (p1 p2 p3 : Param)
  | inp (p1 : Param)
  | out (p1 : Param)
  | jt (p1 p2 : Param)
  | jf (p1 p2 : Param)
  | lt (p1 p2 p3 : Param)
  | eq (p1 p2 p3 : Param)
  | arb (p1 : Param)
  | hlt
  deriving DecidableEq, Repr

/-- The parameters in order (30_encoding.md R84, R87). -/
def Instr.params : Instr → List Param
  | .add p1 p2 p3 => [p1, p2, p3]
  | .mul p1 p2 p3 => [p1, p2, p3]
  | .inp p1 => [p1]
  | .out p1 => [p1]
  | .jt p1 p2 => [p1, p2]
  | .jf p1 p2 => [p1, p2]
  | .lt p1 p2 p3 => [p1, p2, p3]
  | .eq p1 p2 p3 => [p1, p2, p3]
  | .arb p1 => [p1]
  | .hlt => []

/-- The write parameter, where the instruction has one (20_memory.md R60). -/
def Instr.writeParam : Instr → Option Param
  | .add _ _ p3 => some p3
  | .mul _ _ p3 => some p3
  | .inp p1 => some p1
  | .out _ => none
  | .jt _ _ => none
  | .jf _ _ => none
  | .lt _ _ p3 => some p3
  | .eq _ _ p3 => some p3
  | .arb _ => none
  | .hlt => none

/-- The number of cells the instruction occupies, `1 + n` (30_encoding.md R80). -/
def Instr.length (i : Instr) : Nat := i.params.length + 1

end Sys2Proof
end

