-- ==== Sys2Proof/WellFormed.lean ====
section
/-! DEFINITION. Well-formed instructions: those whose write parameter is not Immediate (20_memory.md R59, 30_encoding.md
R92, R94). The others decode, and fault when they are executed. DEDUCED (log 18). -/

namespace Sys2Proof

/-- The parameter may be a destination (20_memory.md R59). -/
def Param.legalDest (p : Param) : Bool :=
  match p.mode with
  | .position => true
  | .immediate => false
  | .relative => true

/-- The write parameter, if there is one, may be a destination. -/
def Instr.wellFormed (i : Instr) : Bool :=
  match i.writeParam with
  | none => true
  | some p => p.legalDest

end Sys2Proof
end

