-- ==== Sys2Proof/Decode.lean ====
section
/-! DEFINITION. The decoder (30_encoding.md R81 to R91), total on any cells, and the encoder (30_encoding.md R87, R95).
The opcode numbers 5 to 9 are the spec's, taken by it from general knowledge: UNVERIFIED (log 12). -/

namespace Sys2Proof

/-- The operation an instruction word selects (30_encoding.md R83). -/
inductive Opcode where
  | add
  | mul
  | inp
  | out
  | jt
  | jf
  | lt
  | eq
  | arb
  | hlt
  deriving DecidableEq, Repr

/-- Why a word is no instruction: 30_encoding.md R88 and R90 (`invalidOpcode`), R89 and R91 (`invalidMode`). -/
inductive Reject where
  | invalidOpcode
  | invalidMode
  deriving DecidableEq, Repr

/-- The ten opcodes in the order of 30_encoding.md R83. -/
def Opcode.all : List Opcode := [.add, .mul, .inp, .out, .jt, .jf, .lt, .eq, .arb, .hlt]

/-- The opcode number (30_encoding.md R83). -/
def Opcode.code : Opcode → Nat
  | .add => 1
  | .mul => 2
  | .inp => 3
  | .out => 4
  | .jt => 5
  | .jf => 6
  | .lt => 7
  | .eq => 8
  | .arb => 9
  | .hlt => 99

/-- The opcode with a given number, if there is one. -/
def Opcode.ofCode (n : Nat) : Option Opcode := Opcode.all.find? fun o => o.code == n

/-- The parameter count (30_encoding.md R84). -/
def Opcode.nparams : Opcode → Nat
  | .add => 3
  | .mul => 3
  | .inp => 1
  | .out => 1
  | .jt => 2
  | .jf => 2
  | .lt => 3
  | .eq => 3
  | .arb => 1
  | .hlt => 0

/-- The mode a digit stands for (30_encoding.md R82, R91). -/
def Mode.ofDigit (d : Nat) : Option Mode :=
  if d = 0 then some .position
  else if d = 1 then some .immediate
  else if d = 2 then some .relative
  else none

/-- The digit of a mode (30_encoding.md R82). -/
def Mode.digit : Mode → Nat
  | .position => 0
  | .immediate => 1
  | .relative => 2

/-- Decimal digit `k` of a number, digit 0 the least significant (00_scope.md R8). -/
def dig (k w : Nat) : Nat := w / 10 ^ k % 10

/-- The `n` lowest digits of `g` as modes, least significant first; nothing may stand above them
(30_encoding.md R81, R85, R89, R91). -/
def decodeModes : Nat → Nat → Except Reject (List Mode)
  | 0, g => if g = 0 then .ok [] else .error .invalidMode
  | n + 1, g =>
    match Mode.ofDigit (g % 10) with
    | none => .error .invalidMode
    | some m =>
      match decodeModes n (g / 10) with
      | .error r => .error r
      | .ok ms => .ok (m :: ms)

/-- `Decode(w)`: a pure function of the instruction word (30_encoding.md R85). -/
def decodeWord (w : Word) : Except Reject (Opcode × List Mode) :=
  if w.toInt < 0 then .error .invalidOpcode
  else
    match Opcode.ofCode (w.toNat % 100) with
    | none => .error .invalidOpcode
    | some op =>
      match decodeModes op.nparams (w.toNat / 100) with
      | .error r => .error r
      | .ok ms => .ok (op, ms)

/-- The instruction of an opcode, its modes and its literal operands (30_encoding.md R87). -/
def assemble (op : Opcode) (ms : List Mode) (lits : List Word) : Instr :=
  let p : Nat → Param := fun k => ⟨ms.getD k .position, lits.getD k 0⟩
  match op with
  | .add => .add (p 0) (p 1) (p 2)
  | .mul => .mul (p 0) (p 1) (p 2)
  | .inp => .inp (p 0)
  | .out => .out (p 0)
  | .jt => .jt (p 0) (p 1)
  | .jf => .jf (p 0) (p 1)
  | .lt => .lt (p 0) (p 1) (p 2)
  | .eq => .eq (p 0) (p 1) (p 2)
  | .arb => .arb (p 0)
  | .hlt => .hlt

/-- The instruction that begins with the first of the given cells; a cell that is not given is 0, as a cell past the
end of the memory is (30_encoding.md R80, R85; 10_state.md R33). -/
def decode (cells : List Word) : Except Reject Instr :=
  match decodeWord (cells.getD 0 0) with
  | .error r => .error r
  | .ok (op, ms) => .ok (assemble op ms cells.tail)

/-- The opcode of an instruction. -/
def Instr.opcode : Instr → Opcode
  | .add _ _ _ => .add
  | .mul _ _ _ => .mul
  | .inp _ => .inp
  | .out _ => .out
  | .jt _ _ => .jt
  | .jf _ _ => .jf
  | .lt _ _ _ => .lt
  | .eq _ _ _ => .eq
  | .arb _ => .arb
  | .hlt => .hlt

/-- The mode group of an instruction word as a number, the first mode its lowest digit (30_encoding.md R81). -/
def encodeModes : List Mode → Nat
  | [] => 0
  | m :: ms => m.digit + 10 * encodeModes ms

/-- `opcode + 100*m_1 + 1000*m_2 + 10000*m_3` (30_encoding.md R95). -/
def Instr.wordNat (i : Instr) : Nat := i.opcode.code + 100 * encodeModes (i.params.map Param.mode)

/-- The cells of an instruction: its word, then its operands (30_encoding.md R80, R95). -/
def encode (i : Instr) : List Word := BitVec.ofNat 64 i.wordNat :: i.params.map Param.lit

/-- Cell `k` of an instruction whose bits are numbered from the least significant bit of its first cell on.
DESIGN CHOICE (log 15): the spec has no bits; a cell is taken as 64 of them. -/
def tableCell (nbits w k : Nat) : Word := BitVec.ofNat 64 (w % 2 ^ nbits / 2 ^ (64 * k))

/-- The four cells of the longest instruction, from such a number. -/
def tableCells (nbits w : Nat) : List Word := [tableCell nbits w 0, tableCell nbits w 1, tableCell nbits w 2, tableCell nbits w 3]

/-- The instruction the decoder reads from the table's bits of an instruction, every bit above them zero. -/
def decodeTableWord (nbits w : Nat) : Option Instr :=
  match decode (tableCells nbits w) with
  | .error _ => none
  | .ok i => some i

end Sys2Proof
end

