-- ==== Sys2Proof/Machine/State.lean ====
section
/-! DEFINITION. The state of the machine (10_state.md R20), its reset (R36), the causes of a fatal step error
(60_exceptions.md R170), the host's transactions and their results (45_host_operations.md R150), and the reasons a step of
the model can stop. -/

namespace Sys2Proof.Machine

/-- The memory: the cells that are not 0, as (address, word) pairs with strictly rising addresses. An address that is not
listed reads as 0 (10_state.md R33, R36). Cells, not bytes: 20_memory.md R51, R55. DEDUCED (log 1). -/
abbrev Memory := List (Nat × Word)

/-- The canonical form: strictly rising addresses, and no cell listed with the value 0. -/
def Memory.wf : Memory → Bool
  | [] => true
  | (a, v) :: m => m.all (fun c => decide (a < c.1)) && v != 0 && Memory.wf m

/-- The causes a step can raise (60_exceptions.md R170). -/
inductive Cause where
  /-- A negative effective address, or a taken jump to a negative target. -/
  | invalidAddress
  /-- A negative instruction word, or low two digits that are no opcode. -/
  | invalidOpcode
  /-- A mode digit above 2, or a digit above the mode group. -/
  | invalidMode
  /-- An Immediate write parameter. -/
  | invalidWriteMode
  /-- A sum, product, address or successor outside `MININT .. MAXINT`. -/
  | arithmeticOverflow
  deriving DecidableEq, Repr

/-- The machine state `st` (10_state.md R28). The payload of `awaitingInput` is an address, that of `hasOutput` a word. -/
inductive RunState where
  | running
  | awaitingInput (d : Nat)
  | hasOutput (v : Word)
  | terminated
  deriving DecidableEq, Repr

/-- What `inspect` returns (45_host_operations.md R155): `st`, `pc`, the cells below `mlen`, and the recorded fault. -/
structure View where
  st : RunState
  pc : Nat
  cells : List Word
  fault : Option Cause
  deriving DecidableEq, Repr

/-- A transaction of the host (45_host_operations.md R150). The host offers integers; those outside the word range are
refused (R152, R153, decision D20). -/
inductive Transaction where
  | construct (image : List Int)
  | step
  | resumeWithInput (x : Int)
  | acknowledgeOutput
  | inspect
  deriving DecidableEq, Repr

/-- What a transaction returns (45_host_operations.md R150 to R157). -/
inductive Reply where
  | ok
  /-- The cause a step raised, or the recorded cause of a faulted instance (R151, R157). -/
  | cause (c : Cause)
  /-- The transaction is not admitted in this state (R156). -/
  | misuse
  /-- An image cell or an input value is not a word (R152, R153, decision D20). -/
  | refused
  | view (v : View)
  deriving DecidableEq, Repr

/-- The state. The first six fields are the spec's (10_state.md R20). The last two are the model's own and hold the other
agent, the host: the transactions it is going to issue and the results it has got (logs 7 and 8). -/
structure State where
  /-- The address of the next instruction word (R23). -/
  pc : Nat
  /-- The relative base (R26). -/
  rb : Word
  /-- The machine state (R28). -/
  st : RunState
  /-- The sticky record of a fatal step error (R31). -/
  fault : Option Cause
  /-- The memory (R33). -/
  mem : Memory
  /-- The growth high-water mark of the memory (R34). -/
  mlen : Nat
  /-- The transactions the host is going to issue, the next one first. -/
  pending : List Transaction
  /-- The results of the transactions issued from `pending`, the oldest first. -/
  replies : List Reply
  deriving DecidableEq, Repr

/-- Why a step of the model stops. -/
inductive Fault where
  /-- Raised by `memRead` and `memWrite`, and by a `construct` of an image that does not fit: an access at or past a
  finite `MEM_LIMIT` has no step, the instance is stuck (20_memory.md R62). With the spec's unbounded memory
  (`Config.memLimit = none`) nothing raises it. Safe. -/
  | beyondMemLimit
  deriving DecidableEq, Repr

/-- Why the model gives an instruction no meaning. -/
inductive Refusal where
  /-- Raised by an arm of `exec` that has no meaning yet; no arm does. Safe. -/
  | notModelled (mnemonic : String)
  deriving DecidableEq, Repr

/-- How the pseudocode of a step ends early: `raise c` (00_scope.md R9), or no step at all (20_memory.md R62). -/
inductive Stop where
  | raise (c : Cause)
  | stuck (f : Fault)
  deriving DecidableEq, Repr

/-- The instance `construct` makes of the empty image (10_state.md R36; 45_host_operations.md R152), with a host that has
nothing to issue. How a program comes to run from here: log 4. -/
def State.reset : State :=
  { pc := 0, rb := 0, st := .running, fault := none, mem := [], mlen := 0, pending := [], replies := [] }

end Sys2Proof.Machine
end

