-- ==== Sys2Proof/Machine/Flags.lean ====
section
/-! DEFINITION. There are no flags (10_state.md R27). What other machines compute as flags is here: the range check of every
result (40_alu.md R110), the 0 or 1 of a comparison (R114, R115) and the truth test of the jumps (41_jumps.md R120, R121). -/

namespace Sys2Proof.Machine

/-- `chk(v)`: the exact result if it is a word, else `ArithmeticOverflow` (40_alu.md R110). -/
def chk (v : Int) : Except Stop Word :=
  if fits v then .ok (Word.ofInt v) else .error (.raise .arithmeticOverflow)

/-- The result of a comparison: 1 for true, 0 for false (40_alu.md R114, R115). UNVERIFIED by the spec's source (log 12). -/
def truthWord (b : Bool) : Word := if b then 1 else 0

/-- A condition is true when it is not zero (41_jumps.md R120, R121). UNVERIFIED by the spec's source (log 12). -/
def condTrue (c : Word) : Bool := c != 0

end Sys2Proof.Machine
end

