-- ==== Sys2Proof/Machine/Ops.lean ====
section
/-! DEFINITION. The named operations over the memory and the registers: the memory primitives (20_memory.md R52, R53), the
fetch of an instruction's cells (45_host_operations.md R151), the end of a step, and taking a fault (60_exceptions.md R172). -/

namespace Sys2Proof.Machine

/-- The value of a cell; 0 where none is listed (10_state.md R33). -/
def Memory.read : Memory → Nat → Word
  | [], _ => 0
  | (k, v) :: m, a => if k = a then v else Memory.read m a

/-- The memory without a listed cell at an address. -/
def Memory.erase (m : Memory) (a : Nat) : Memory := m.filter fun c => c.1 != a

/-- The memory with a cell put before the first greater address. -/
def Memory.insert : Memory → Nat → Word → Memory
  | [], a, v => [(a, v)]
  | (k, w) :: m, a, v => if a < k then (a, v) :: (k, w) :: m else (k, w) :: Memory.insert m a v

/-- The memory after a write; writing 0 leaves no cell listed, so that the form stays canonical. -/
def Memory.write (m : Memory) (a : Nat) (v : Word) : Memory :=
  if v = 0 then Memory.erase m a else Memory.insert (Memory.erase m a) a v

/-- The memory after writing a sequence of words from an address upward. -/
def Memory.store (m : Memory) (a : Nat) : List Word → Memory
  | [] => m
  | v :: vs => Memory.store (Memory.write m a v) (a + 1) vs

/-- The address is at or past a finite `MEM_LIMIT` (20_memory.md R62). -/
def beyond (limit : Option Nat) (a : Nat) : Bool :=
  match limit with
  | none => false
  | some l => decide (l ≤ a)

/-- The growth of an access: `mlen` reaches past the address (10_state.md R34, 20_memory.md R52, R53). -/
def State.grow (s : State) (a : Nat) : State := { s with mlen := max s.mlen (a + 1) }

/-- `MemRead(a, 1)` (20_memory.md R52), with the memory limit of R62. -/
def memRead (limit : Option Nat) (a : Int) (s : State) : Except Stop (Word × State) :=
  if a < 0 then .error (.raise .invalidAddress)
  else if beyond limit a.toNat then .error (.stuck .beyondMemLimit)
  else .ok (s.mem.read a.toNat, s.grow a.toNat)

/-- `MemWrite(a, 1, v)` (20_memory.md R53), with the memory limit of R62. -/
def memWrite (limit : Option Nat) (a : Int) (v : Word) (s : State) : Except Stop State :=
  if a < 0 then .error (.raise .invalidAddress)
  else if beyond limit a.toNat then .error (.stuck .beyondMemLimit)
  else .ok { s.grow a.toNat with mem := s.mem.write a.toNat v }

/-- `n` reads of consecutive cells, for what they do to the state. -/
def touchCells (limit : Option Nat) : Nat → Nat → State → Except Stop State
  | 0, _, s => .ok s
  | n + 1, a, s => do
    let (_, s) ← memRead limit a s
    touchCells limit n (a + 1) s

/-- Steps 1, 3 and 4 of 45_host_operations.md R151 for an instruction with `n` parameters: the fetch of its word, the check
of its successor address, the fetch of its operands. The values fetched are in the instruction (log 9). -/
def fetchInstr (limit : Option Nat) (n : Nat) (s : State) : Except Stop State := do
  let (_, s) ← memRead limit s.pc s
  let _ ← chk (s.pc + n + 1)
  touchCells limit n (s.pc + 1) s

/-- TAKING A FAULT (60_exceptions.md R172): the cause is recorded, and nothing else changes. There is no handler to go to and
no saved state. There is no return from a fault either (R177): only `construct` makes a machine without it. -/
def takeFault (c : Cause) (s : State) : State := { s with fault := some c }

/-- The end of a step that began in `s` (45_host_operations.md R151, 00_scope.md R10): its writes take effect together, or
none does and the fault is taken. -/
def commit (s : State) (r : Except Stop State) : Host.Outcome State Fault Refusal :=
  match r with
  | .ok s' => .next s'
  | .error (.raise c) => .next (takeFault c s)
  | .error (.stuck f) => .fault f

end Sys2Proof.Machine
end

