-- ==== Sys2Proof/Machine/Operands.lean ====
section
/-! DEFINITION. The operand forms: a parameter as a value (20_memory.md R58) and as a destination (R59). -/

namespace Sys2Proof.Machine

/-- The effective address of a Relative parameter, `chk(rb + o)` (20_memory.md R58, R59). -/
def relativeAddr (s : State) (o : Word) : Except Stop Word := chk (s.rb.toInt + o.toInt)

/-- `RdParam`: the value of a read parameter, and the growth its read causes (20_memory.md R58). -/
def rdParam (limit : Option Nat) (p : Param) (s : State) : Except Stop (Word × State) :=
  match p.mode with
  | .immediate => .ok (p.lit, s)
  | .position => memRead limit p.lit.toInt s
  | .relative => do
    let a ← relativeAddr s p.lit
    memRead limit a.toInt s

/-- A word as a destination address: it must not be negative (20_memory.md R59). -/
def destination (a : Word) : Except Stop Nat :=
  if a.toInt < 0 then .error (.raise .invalidAddress) else .ok a.toInt.toNat

/-- `WrParam`: the destination of a write parameter; no memory is touched (20_memory.md R59). -/
def wrParam (p : Param) (s : State) : Except Stop Nat :=
  match p.mode with
  | .immediate => .error (.raise .invalidWriteMode)
  | .position => destination p.lit
  | .relative => do
    let a ← relativeAddr s p.lit
    destination a

end Sys2Proof.Machine
end

