-- ==== Sys2Proof/Machine/Alu.lean ====
section
/-! DEFINITION. ADD, MUL, LT, EQ (40_alu.md R112 to R116). -/

namespace Sys2Proof.Machine

/-- The shape the four share: two values, a destination, a result from the values, one write, then the next instruction
(40_alu.md R112 to R116). As every operation under a meaning it takes the memory limit of 20_memory.md R62. -/
def aluOp (limit : Option Nat) (f : Int → Int → Except Stop Word) (p1 p2 p3 : Param) (s : State) : Host.Outcome State Fault Refusal :=
  commit s do
    let s1 ← fetchInstr limit 3 s
    let (a, s2) ← rdParam limit p1 s1
    let (b, s3) ← rdParam limit p2 s2
    let d ← wrParam p3 s3
    let r ← f a.toInt b.toInt
    let s4 ← memWrite limit d r s3
    .ok { s4 with pc := s.pc + 4 }

/-- ADD (40_alu.md R112). -/
def addWith (limit : Option Nat) (p1 p2 p3 : Param) (s : State) : Host.Outcome State Fault Refusal :=
  aluOp limit (fun a b => chk (a + b)) p1 p2 p3 s

/-- ADD at the spec's limit. -/
def execAdd (p1 p2 p3 : Param) (s : State) : Host.Outcome State Fault Refusal :=
  addWith Config.memLimit p1 p2 p3 s

/-- MUL (40_alu.md R113). -/
def mulWith (limit : Option Nat) (p1 p2 p3 : Param) (s : State) : Host.Outcome State Fault Refusal :=
  aluOp limit (fun a b => chk (a * b)) p1 p2 p3 s

/-- MUL at the spec's limit. -/
def execMul (p1 p2 p3 : Param) (s : State) : Host.Outcome State Fault Refusal :=
  mulWith Config.memLimit p1 p2 p3 s

/-- LT: a signed comparison of parameter 1 against parameter 2 (40_alu.md R114). -/
def ltWith (limit : Option Nat) (p1 p2 p3 : Param) (s : State) : Host.Outcome State Fault Refusal :=
  aluOp limit (fun a b => .ok (truthWord (decide (a < b)))) p1 p2 p3 s

/-- LT at the spec's limit. -/
def execLt (p1 p2 p3 : Param) (s : State) : Host.Outcome State Fault Refusal :=
  ltWith Config.memLimit p1 p2 p3 s

/-- EQ (40_alu.md R115). -/
def eqWith (limit : Option Nat) (p1 p2 p3 : Param) (s : State) : Host.Outcome State Fault Refusal :=
  aluOp limit (fun a b => .ok (truthWord (decide (a = b)))) p1 p2 p3 s

/-- EQ at the spec's limit. -/
def execEq (p1 p2 p3 : Param) (s : State) : Host.Outcome State Fault Refusal :=
  eqWith Config.memLimit p1 p2 p3 s

end Sys2Proof.Machine
end

