-- ==== Sys2Proof/Machine/Halt.lean ====
section
/-! DEFINITION. HLT (44_halt.md R145). -/

namespace Sys2Proof.Machine

/-- HLT: `st` becomes Terminated and `pc` passes the instruction (44_halt.md R145). -/
def hltWith (limit : Option Nat) (s : State) : Host.Outcome State Fault Refusal :=
  commit s do
    let s1 ← fetchInstr limit 0 s
    .ok { s1 with st := .terminated, pc := s.pc + 1 }

/-- HLT at the spec's limit. -/
def execHlt (s : State) : Host.Outcome State Fault Refusal := hltWith Config.memLimit s

end Sys2Proof.Machine
end

