-- ==== Sys2Proof/Machine/Io.lean ====
section
/-! DEFINITION. IN and OUT, the hand-over to the host (43_io.md R135 to R137). -/

namespace Sys2Proof.Machine

/-- IN: the destination is resolved now, the value is written by `resumeWithInput` (43_io.md R135). -/
def inpWith (limit : Option Nat) (p1 : Param) (s : State) : Host.Outcome State Fault Refusal :=
  commit s do
    let s1 ← fetchInstr limit 1 s
    let d ← wrParam p1 s1
    .ok { s1 with st := .awaitingInput d, pc := s.pc + 2 }

/-- IN at the spec's limit. -/
def execInp (p1 : Param) (s : State) : Host.Outcome State Fault Refusal := inpWith Config.memLimit p1 s

/-- OUT: the value is held in `st` until the host acknowledges it (43_io.md R136). -/
def outWith (limit : Option Nat) (p1 : Param) (s : State) : Host.Outcome State Fault Refusal :=
  commit s do
    let s1 ← fetchInstr limit 1 s
    let (v, s2) ← rdParam limit p1 s1
    .ok { s2 with st := .hasOutput v, pc := s.pc + 2 }

/-- OUT at the spec's limit. -/
def execOut (p1 : Param) (s : State) : Host.Outcome State Fault Refusal := outWith Config.memLimit p1 s

end Sys2Proof.Machine
end

