-- ==== Sys2Proof/Machine/Jumps.lean ====
section
/-! DEFINITION. JT and JF (41_jumps.md R120 to R122). -/

namespace Sys2Proof.Machine

/-- The shape the two share: both parameters are resolved whether or not the jump is taken, and only a taken jump checks its
target (41_jumps.md R120 to R122). -/
def jumpOp (limit : Option Nat) (taken : Word → Bool) (p1 p2 : Param) (s : State) : Host.Outcome State Fault Refusal :=
  commit s do
    let s1 ← fetchInstr limit 2 s
    let (c, s2) ← rdParam limit p1 s1
    let (t, s3) ← rdParam limit p2 s2
    if taken c then
      if t.toInt < 0 then .error (.raise .invalidAddress)
      else .ok { s3 with pc := t.toInt.toNat }
    else .ok { s3 with pc := s.pc + 3 }

/-- JT (41_jumps.md R120). -/
def jtWith (limit : Option Nat) (p1 p2 : Param) (s : State) : Host.Outcome State Fault Refusal :=
  jumpOp limit (fun c => condTrue c) p1 p2 s

/-- JT at the spec's limit. -/
def execJt (p1 p2 : Param) (s : State) : Host.Outcome State Fault Refusal :=
  jtWith Config.memLimit p1 p2 s

/-- JF (41_jumps.md R121). -/
def jfWith (limit : Option Nat) (p1 p2 : Param) (s : State) : Host.Outcome State Fault Refusal :=
  jumpOp limit (fun c => !condTrue c) p1 p2 s

/-- JF at the spec's limit. -/
def execJf (p1 p2 : Param) (s : State) : Host.Outcome State Fault Refusal :=
  jfWith Config.memLimit p1 p2 s

end Sys2Proof.Machine
end

