-- ==== Sys2Proof/Machine/RelBase.lean ====
section
/-! DEFINITION. ARB, the one instruction that writes the relative base (42_relbase.md R130, R131). -/

namespace Sys2Proof.Machine

/-- ARB: the parameter is read at the old base, then added to it (42_relbase.md R130). -/
def arbWith (limit : Option Nat) (p1 : Param) (s : State) : Host.Outcome State Fault Refusal :=
  commit s do
    let s1 ← fetchInstr limit 1 s
    let (a, s2) ← rdParam limit p1 s1
    let r ← chk (s.rb.toInt + a.toInt)
    .ok { s2 with rb := r, pc := s.pc + 2 }

/-- ARB at the spec's limit. -/
def execArb (p1 : Param) (s : State) : Host.Outcome State Fault Refusal := arbWith Config.memLimit p1 s

end Sys2Proof.Machine
end

