-- ==== Sys2Proof/Machine/Build.lean ====
section
/-! DEFINITION. A build of the hardware: the parameter `MEM_LIMIT` (00_scope.md R6, 20_memory.md R62, decision D3) as an argument of the
whole machine. `exec` is the instruction at the spec's value; the definitions that end in `On` take a build (log 3). -/

namespace Sys2Proof.Machine

/-- One instruction of a build with any memory limit. -/
def execWith (limit : Option Nat) (i : Instr) (s : State) : Host.Outcome State Fault Refusal :=
  match i with
  | .add p1 p2 p3 => addWith limit p1 p2 p3 s
  | .mul p1 p2 p3 => mulWith limit p1 p2 p3 s
  | .inp p1 => inpWith limit p1 s
  | .out p1 => outWith limit p1 s
  | .jt p1 p2 => jtWith limit p1 p2 s
  | .jf p1 p2 => jfWith limit p1 p2 s
  | .lt p1 p2 p3 => ltWith limit p1 p2 p3 s
  | .eq p1 p2 p3 => eqWith limit p1 p2 p3 s
  | .arb p1 => arbWith limit p1 s
  | .hlt => hltWith limit s

/-- What differs between builds: the memory limit, and with it how an instruction runs. -/
structure Build where
  limit : Option Nat
  run : Instr → State → Host.Outcome State Fault Refusal

/-- The build the spec describes: the memory limit at its default, the instructions as `exec` has them. -/
def Build.spec : Build := { limit := Config.memLimit, run := exec }

/-- The build with a given memory limit. -/
def Build.ofLimit (limit : Option Nat) : Build := { limit := limit, run := execWith limit }

end Sys2Proof.Machine
end

