-- ==== Sys2Proof/Machine/Cycle.lean ====
section
/-! DEFINITION. The instance's own step: fetch, decode, execute (45_host_operations.md R151, R156, R157). -/

namespace Sys2Proof.Machine

/-- The cells from `pc` on, as many as the longest instruction has (30_encoding.md R80). Looking at them grows nothing;
the growth of a fetch is in `fetchInstr` (log 9). -/
def fetchCells (s : State) : List Word :=
  [s.mem.read s.pc, s.mem.read (s.pc + 1), s.mem.read (s.pc + 2), s.mem.read (s.pc + 3)]

/-- The cause a decode error raises (30_encoding.md R85). -/
def rejectCause : Reject → Cause
  | .invalidOpcode => .invalidOpcode
  | .invalidMode => .invalidMode

/-- `step` is admitted (45_host_operations.md R151). -/
def State.canStep (s : State) : Bool := decide (s.fault = none) && decide (s.st = .running)

/-- One instruction, or the fault it raises; where a step is not admitted nothing changes (45_host_operations.md R151, R156,
R157; log 6). -/
def cycleOn (b : Build) (s : State) : Host.Outcome State Fault Refusal :=
  if s.canStep then
    match memRead b.limit s.pc s with
    | .error e => commit s (.error e)
    | .ok _ =>
      match decode (fetchCells s) with
      | .error r => .next (takeFault (rejectCause r) s)
      | .ok i => b.run i s
  else .next s

/-- `cycleOn` the spec's build. -/
def cycle (s : State) : Host.Outcome State Fault Refusal := cycleOn .spec s

end Sys2Proof.Machine
end

