-- ==== Sys2Proof/Machine/HostOps.lean ====
section
/-! DEFINITION. The host's transactions (45_host_operations.md R150 to R157), the numeric codes of causes and states, and how
the two agents, host and instance, take turns (R159, log 7). -/

namespace Sys2Proof.Machine

/-- The numeric code of a cause (60_exceptions.md R170). -/
def Cause.code : Cause → Nat
  | .invalidAddress => 1
  | .invalidOpcode => 2
  | .invalidMode => 3
  | .invalidWriteMode => 4
  | .arithmeticOverflow => 5

/-- The `fault` register as a number: 0 for None (60_exceptions.md R170). -/
def State.faultCode (s : State) : Nat :=
  match s.fault with
  | none => 0
  | some c => c.code

/-- The code of an error reply; 6 is Misuse (60_exceptions.md R170). A reply that is no error of that table has none. -/
def Reply.code : Reply → Option Nat
  | .ok => none
  | .cause c => some c.code
  | .misuse => some 6
  | .refused => none
  | .view _ => none

/-- The suggested 2-bit tag of `st` (10_state.md R30, not normative). -/
def RunState.tag : RunState → BitVec 2
  | .running => 0
  | .awaitingInput _ => 1
  | .hasOutput _ => 2
  | .terminated => 3

/-- The transaction is admitted in the state (45_host_operations.md R150). -/
def Transaction.admitted (t : Transaction) (s : State) : Bool :=
  match t with
  | .construct _ => true
  | .step => s.canStep
  | .resumeWithInput _ =>
    match s.fault, s.st with
    | none, .awaitingInput _ => true
    | _, _ => false
  | .acknowledgeOutput =>
    match s.fault, s.st with
    | none, .hasOutput _ => true
    | _, _ => false
  | .inspect => true

/-- What a transaction that is not admitted returns: the recorded cause, else Misuse (45_host_operations.md R156, R157). -/
def notAdmitted (s : State) : Reply :=
  match s.fault with
  | some c => .cause c
  | none => .misuse

/-- What `inspect` shows (45_host_operations.md R155). -/
def State.view (s : State) : View :=
  { st := s.st, pc := s.pc, cells := (List.range s.mlen).map s.mem.read, fault := s.fault }

/-- The sequence is an image: every cell is a word, and every cell has an address (45_host_operations.md R152, 20_memory.md
R50; log 11). -/
def isImage (image : List Int) : Bool :=
  decide (image.length ≤ maxAddr + 1) && image.all fits

/-- The instance after `construct` of an image (10_state.md R36); the host's own lists are not the instance's and stay. -/
def State.construct (image : List Int) (s : State) : State :=
  { s with
    pc := 0
    rb := 0
    st := .running
    fault := none
    mem := Memory.store [] 0 (image.map Word.ofInt)
    mlen := image.length }

/-- The image does not fit a finite `MEM_LIMIT` (20_memory.md R62, log 3). -/
def overLimit (limit : Option Nat) (image : List Int) : Bool :=
  match limit with
  | none => false
  | some l => decide (l < image.length)

/-- One transaction on an instance: the state after it and what it returns (45_host_operations.md R151 to R157). -/
def transactOn (b : Build) (t : Transaction) (s : State) : Host.Outcome (State × Reply) Fault Refusal :=
  match t with
  | .construct image =>
    if isImage image then
      if overLimit b.limit image then .fault .beyondMemLimit else .next (s.construct image, .ok)
    else .next (s, .refused)
  | .step =>
    if s.canStep then
      match cycleOn b s with
      | .next s' =>
        match s'.fault with
        | none => .next (s', .ok)
        | some c => .next (s', .cause c)
      | .fault f => .fault f
      | .refused r => .refused r
    else .next (s, notAdmitted s)
  | .resumeWithInput x =>
    match s.fault, s.st with
    | none, .awaitingInput d =>
      if fits x then
        match memWrite b.limit d (Word.ofInt x) s with
        | .ok s' => .next ({ s' with st := .running }, .ok)
        | .error (.raise c) => .next (s, .cause c)
        | .error (.stuck f) => .fault f
      else .next (s, .refused)
    | _, _ => .next (s, notAdmitted s)
  | .acknowledgeOutput =>
    match s.fault, s.st with
    | none, .hasOutput _ => .next ({ s with st := .running }, .ok)
    | _, _ => .next (s, notAdmitted s)
  | .inspect => .next (s, .view s.view)

/-- `transactOn` the spec's build. -/
def transact (t : Transaction) (s : State) : Host.Outcome (State × Reply) Fault Refusal := transactOn .spec t s

/-- The host issues a transaction and keeps what it returns. -/
def issueOn (b : Build) (t : Transaction) (s : State) : Host.Outcome State Fault Refusal :=
  match transactOn b t s with
  | .next (s', r) => .next { s' with replies := s'.replies ++ [r] }
  | .fault f => .fault f
  | .refused r => .refused r

/-- `issueOn` the spec's build. -/
def issue (t : Transaction) (s : State) : Host.Outcome State Fault Refusal := issueOn .spec t s

/-- One move of host and instance together. The host's next transaction is issued when it is admitted, or when the instance
cannot step; otherwise the host waits and the instance steps. DESIGN CHOICE (log 7): the spec leaves the turns to the host. -/
def moveOn (b : Build) (s : State) : Host.Outcome State Fault Refusal :=
  match s.pending with
  | [] => cycleOn b s
  | t :: ts => if t.admitted s || !s.canStep then issueOn b t { s with pending := ts } else cycleOn b s

/-- `moveOn` the spec's build. -/
def move (s : State) : Host.Outcome State Fault Refusal := moveOn .spec s

end Sys2Proof.Machine
end

