-- ==== Sys2Proof/Machine/Run.lean ====
section
/-! DEFINITION. The reference host driver `run` (45_host_operations.md R158, 70_reset_and_hazards.md R208) and systems of
several instances (60_exceptions.md R190). Both are built on the host's
transactions alone. -/

namespace Sys2Proof.Machine

/-- How a run of the helper ends (70_reset_and_hazards.md R208). -/
inductive RunEnd where
  | ok (outs : List Word)
  | error (c : Cause)
  | inputExhausted
  /-- The fuel is used up: the run has not returned yet (41_jumps.md R124, log 16). -/
  | unfinished
  /-- An access past a finite memory limit (20_memory.md R62). -/
  | stuck (f : Fault)
  deriving DecidableEq, Repr

/-- The code of an error of the helper; 7 is InputExhausted (60_exceptions.md R170). -/
def RunEnd.code : RunEnd → Option Nat
  | .ok _ => none
  | .error c => some c.code
  | .inputExhausted => some 7
  | .unfinished => none
  | .stuck _ => none

/-- The state after a transaction, for a host that ignores what it returns; a stuck instance stays as it is. -/
def advanceOn (b : Build) (t : Transaction) (s : State) : State :=
  match transactOn b t s with
  | .next (s', _) => s'
  | .fault _ => s
  | .refused _ => s

/-- `run(P, inputs)`: one turn of the loop for each unit of fuel (45_host_operations.md R158). -/
def runHelperOn (b : Build) : Nat → List Word → List Word → State → RunEnd × State
  | 0, _, _, s => (.unfinished, s)
  | fuel + 1, inputs, outs, s =>
    match s.st with
    | .running =>
      match transactOn b .step s with
      | .next (s', .cause c) => (.error c, s')
      | .next (s', _) => runHelperOn b fuel inputs outs s'
      | .fault f => (.stuck f, s)
      | .refused _ => (.unfinished, s)
    | .awaitingInput _ =>
      match inputs with
      | [] => (.inputExhausted, s)
      | x :: xs =>
        match transactOn b (.resumeWithInput x.toInt) s with
        | .next (s', _) => runHelperOn b fuel xs outs s'
        | .fault f => (.stuck f, s)
        | .refused _ => (.unfinished, s)
    | .hasOutput v => runHelperOn b fuel inputs (outs ++ [v]) (advanceOn b .acknowledgeOutput s)
    | .terminated => (.ok outs, s)

/-- `runHelperOn` the spec's build. -/
def runHelper (fuel : Nat) (inputs outs : List Word) (s : State) : RunEnd × State := runHelperOn .spec fuel inputs outs s

/-- `run(image, inputs)`: the instance is constructed first (45_host_operations.md R158). -/
def runImage (fuel : Nat) (image inputs : List Word) : RunEnd × State :=
  runHelper fuel inputs [] (State.reset.construct (image.map BitVec.toInt))

/-- A transaction on a place that may hold no instance: before the first `construct` there is no state, and nothing but
`construct` is admitted (10_state.md R36, 45_host_operations.md R152, decision D21, log 14). -/
def transactSlotOn (b : Build) (t : Transaction) (slot : Option State) : Host.Outcome (Option State × Reply) Fault Refusal :=
  match slot with
  | some s =>
    match transactOn b t s with
    | .next (s', r) => .next (some s', r)
    | .fault f => .fault f
    | .refused r => .refused r
  | none =>
    match t with
    | .construct image =>
      match transactOn b (.construct image) State.reset with
      | .next (s', .ok) => .next (some s', .ok)
      | .next (_, r) => .next (none, r)
      | .fault f => .fault f
      | .refused r => .refused r
    | .step => .next (none, .misuse)
    | .resumeWithInput _ => .next (none, .misuse)
    | .acknowledgeOutput => .next (none, .misuse)
    | .inspect => .next (none, .misuse)

/-- The place after a transaction, for a host that ignores what it returns; a stuck instance stays as it is. -/
def advanceSlotOn (b : Build) (t : Transaction) (slot : Option State) : Option State :=
  match transactSlotOn b t slot with
  | .next (slot', _) => slot'
  | .fault _ => slot
  | .refused _ => slot

/-- `advanceSlotOn` the spec's build. -/
def advanceSlot (t : Transaction) (slot : Option State) : Option State := advanceSlotOn .spec t slot

/-- Places for several instances; the instances share nothing (60_exceptions.md R190). -/
abbrev System := List (Option State)

/-- A host transaction on one place of a system (60_exceptions.md R190, log 14). -/
def System.issueAt (sys : System) (k : Nat) (t : Transaction) : System := sys.modify k (advanceSlot t)

/-- The host drops an instance; nothing of it survives (70_reset_and_hazards.md R201). -/
def System.drop (sys : System) (k : Nat) : System := sys.modify k fun _ => none

/-- A schedule of transactions, each on one place, in the order the hosts issue them. -/
def System.runSchedule (sys : System) (schedule : List (Nat × Transaction)) : System :=
  schedule.foldl (fun acc e => System.issueAt acc e.1 e.2) sys

end Sys2Proof.Machine
end

