-- ==== Sys2Proof/Machine/Step.lean ====
section
/-! DEFINITION. The step of the model, and the placing of one instruction where the next step fetches. -/

namespace Sys2Proof.Machine

/-- One step: the instance's next instruction, or the host's next transaction (45_host_operations.md R159). -/
def step (s : State) : Host.Outcome State Fault Refusal := move s

/-- One step of a build with any memory limit (20_memory.md R62). -/
def stepWith (limit : Option Nat) (s : State) : Host.Outcome State Fault Refusal := moveOn (.ofLimit limit) s

/-- The state with an instruction's cells placed at `pc`, able to step, and no transaction of the host before it. It stands for
the load of a program (log 4) and the table's numbering of bits (log 15). -/
def State.withFetchWord (s : State) (nbits w : Nat) : State :=
  { s with
    st := .running
    fault := none
    mem := s.mem.store s.pc (tableCells nbits w)
    mlen := max s.mlen (s.pc + 4)
    pending := [] }

end Sys2Proof.Machine
end

