-- ==== Sys2Proof/Safety.lean ====
section
/-! DEFINITION. The terms claims use: the conditions on a parameter and on an instruction, read off the spec's prose and written
apart from the machine's operations; the invariant of the state (10_state.md R35); how a run stands (70_reset_and_hazards.md
R207). -/

namespace Sys2Proof.Machine

/-- The effective address of a Position or Relative parameter as an exact integer (20_memory.md R58); 0 for an Immediate one,
which has none. -/
def effAddr (rb : Word) (p : Param) : Int :=
  match p.mode with
  | .position => p.lit.toInt
  | .immediate => 0
  | .relative => rb.toInt + p.lit.toInt

/-- The parameter can be read: Immediate, or its effective address is a word that is not negative (20_memory.md R58). -/
def Readable (rb : Word) (p : Param) : Prop :=
  match p.mode with
  | .position => 0 ≤ p.lit.toInt
  | .immediate => True
  | .relative => 0 ≤ rb.toInt + p.lit.toInt ∧ rb.toInt + p.lit.toInt ≤ maxInt

/-- The parameter can be a destination (20_memory.md R59). -/
def Writable (rb : Word) (p : Param) : Prop :=
  match p.mode with
  | .position => 0 ≤ p.lit.toInt
  | .immediate => False
  | .relative => 0 ≤ rb.toInt + p.lit.toInt ∧ rb.toInt + p.lit.toInt ≤ maxInt

/-- The value of a readable parameter (20_memory.md R58). -/
def readValue (s : State) (p : Param) : Word :=
  match p.mode with
  | .position => s.mem.read p.lit.toInt.toNat
  | .immediate => p.lit
  | .relative => s.mem.read (s.rb.toInt + p.lit.toInt).toNat

/-- The destination address of a writable parameter (20_memory.md R59). -/
def destAddr (rb : Word) (p : Param) : Nat := (effAddr rb p).toNat

/-- How far the read of a parameter makes the memory reach: nowhere for an Immediate one (20_memory.md R52, R58). -/
def readReach (rb : Word) (p : Param) : Nat :=
  match p.mode with
  | .position => p.lit.toInt.toNat + 1
  | .immediate => 0
  | .relative => (rb.toInt + p.lit.toInt).toNat + 1

/-- The fault of an address that must be a word and not negative (60_exceptions.md R176). -/
def addrFault (a : Int) : Option Cause :=
  if fits a then (if a < 0 then some .invalidAddress else none) else some .arithmeticOverflow

/-- The fault of resolving a read parameter (20_memory.md R58, 60_exceptions.md R176). -/
def readFault (rb : Word) (p : Param) : Option Cause :=
  match p.mode with
  | .position => addrFault p.lit.toInt
  | .immediate => none
  | .relative => addrFault (rb.toInt + p.lit.toInt)

/-- The fault of resolving a write parameter (20_memory.md R59, 60_exceptions.md R176). -/
def writeFault (rb : Word) (p : Param) : Option Cause :=
  match p.mode with
  | .position => addrFault p.lit.toInt
  | .immediate => some .invalidWriteMode
  | .relative => addrFault (rb.toInt + p.lit.toInt)

/-- The fault of a result, or of a successor address, that must be a word (40_alu.md R110). -/
def rangeFault (v : Int) : Option Cause := if fits v then none else some .arithmeticOverflow

/-- The first fault of a list of checks in order (60_exceptions.md R176). -/
def firstFault : List (Option Cause) → Option Cause
  | [] => none
  | some c :: _ => some c
  | none :: rest => firstFault rest

/-- The sequential successor `pc + k` is an address (45_host_operations.md R151 step 3). -/
def SuccessorOk (s : State) (k : Nat) : Prop := s.pc + k ≤ maxAddr

/-- The invariant of the state: 10_state.md R35 (a) and the bound of R23, the canonical form of the memory with R35 (c) and (e), the
bound of `mlen` (R34), R35 (f) with the bound of R28, and 45_host_operations.md R157 ("a faulted instance always has
`st = Running`"). R35 (b) holds by the meaning of `pc`, R35 (d) by the type `Word`. -/
structure State.Inv (s : State) : Prop where
  pc_addr : s.pc ≤ maxAddr
  mem_wf : s.mem.wf = true
  mem_below : ∀ c ∈ s.mem, c.1 < s.mlen
  mlen_bound : s.mlen ≤ maxAddr + 1
  awaiting_addr : ∀ d, s.st = .awaitingInput d → d ≤ maxAddr
  fault_running : s.fault ≠ none → s.st = .running

/-- The run has ended normally (70_reset_and_hazards.md R207). -/
def State.Final (s : State) : Prop := s.st = .terminated ∧ s.fault = none

/-- The run has ended abnormally (70_reset_and_hazards.md R207). -/
def State.Faulted (s : State) : Prop := s.fault ≠ none

/-- The instruction writes memory in its own step (40_alu.md R116; 43_io.md R135). -/
def Stores : Instr → Prop
  | .add _ _ _ => True
  | .mul _ _ _ => True
  | .inp _ => False
  | .out _ => False
  | .jt _ _ => False
  | .jf _ _ => False
  | .lt _ _ _ => True
  | .eq _ _ _ => True
  | .arb _ => False
  | .hlt => False

end Sys2Proof.Machine
end

