-- ==== Sys2Proof/Certificates/Slice0/Obligations.lean ====
section
/-! DEFINITION. The statements for the provers. "The spec's decision D<n>" is a row of 92_eei_decisions.md; "general knowledge" is
93_implementation_defined.md part 2. Each docstring says which rule its statement is about. -/

open Sys2Proof Sys2Proof.Machine

/-! ### Encoding and decoding -/

/-- Words written out from the formats of 30_encoding.md R87 (`m_3 m_2 m_1 o o`) decode to the opcode and modes they stand for, one at
least for every opcode. The numbers 5 to 9 are general knowledge (G1). -/
def Obligations.SampleWordsDecode : Prop :=
  decodeWord 1 = .ok (.add, [.position, .position, .position]) ∧
  decodeWord 21201 = .ok (.add, [.relative, .immediate, .relative]) ∧
  decodeWord 11102 = .ok (.mul, [.immediate, .immediate, .immediate]) ∧
  decodeWord 203 = .ok (.inp, [.relative]) ∧
  decodeWord 103 = .ok (.inp, [.immediate]) ∧
  decodeWord 104 = .ok (.out, [.immediate]) ∧
  decodeWord 2105 = .ok (.jt, [.immediate, .relative]) ∧
  decodeWord 1006 = .ok (.jf, [.position, .immediate]) ∧
  decodeWord 22207 = .ok (.lt, [.relative, .relative, .relative]) ∧
  decodeWord 1008 = .ok (.eq, [.position, .immediate, .position]) ∧
  decodeWord 209 = .ok (.arb, [.relative]) ∧
  decodeWord 99 = .ok (.hlt, [])

/-- `Decode` says of every word what 30_encoding.md R85 says, in the order it says it, in terms of decimal digits. Its treatment of
negative words and of digits above the mode group is the spec's decisions D8 and D9. -/
def Obligations.DecodeFollowsTheDigits : Prop :=
  ∀ w : Word,
    (w.toInt < 0 → decodeWord w = .error .invalidOpcode) ∧
    (0 ≤ w.toInt → (∀ op : Opcode, op.code ≠ w.toNat % 100) → decodeWord w = .error .invalidOpcode) ∧
    (0 ≤ w.toInt → ∀ op : Opcode, op.code = w.toNat % 100 →
      ((∃ i, 1 ≤ i ∧ i ≤ op.nparams ∧ 2 < dig (i + 1) w.toNat) → decodeWord w = .error .invalidMode) ∧
      (w.toNat / 10 ^ (op.nparams + 2) ≠ 0 → decodeWord w = .error .invalidMode) ∧
      ((∀ i, 1 ≤ i → i ≤ op.nparams → dig (i + 1) w.toNat ≤ 2) → w.toNat / 10 ^ (op.nparams + 2) = 0 →
        ∃ ms : List Mode, decodeWord w = .ok (op, ms) ∧
          ms.map Mode.digit = (List.range op.nparams).map fun i => dig (i + 2) w.toNat))

/-- 30_encoding.md R82: a missing digit is Position, the digit values, and the rule's three words. -/
def Obligations.MissingModeDigitIsPosition : Prop :=
  (∀ (w : Word) (op : Opcode) (ms : List Mode), decodeWord w = .ok (op, ms) →
    ∀ i, i < op.nparams → w.toNat < 10 ^ (i + 2) → ms[i]? = some .position) ∧
  (∀ (w : Word) (op : Opcode) (ms : List Mode), decodeWord w = .ok (op, ms) →
    ∀ i, i < op.nparams →
      (dig (i + 2) w.toNat = 0 ∧ ms[i]? = some .position) ∨ (dig (i + 2) w.toNat = 1 ∧ ms[i]? = some .immediate) ∨
        (dig (i + 2) w.toNat = 2 ∧ ms[i]? = some .relative)) ∧
  decodeWord 1 = .ok (.add, [.position, .position, .position]) ∧
  decodeWord 1101 = .ok (.add, [.immediate, .immediate, .position]) ∧
  decodeWord 1002 = .ok (.mul, [.position, .immediate, .position])

/-- 30_encoding.md R84: the parameter count of each opcode, which every decoded word and every instruction has. -/
def Obligations.ParameterCountsAreFixed : Prop :=
  (∀ op ∈ [Opcode.add, Opcode.mul, Opcode.lt, Opcode.eq], op.nparams = 3) ∧
  (∀ op ∈ [Opcode.inp, Opcode.out, Opcode.arb], op.nparams = 1) ∧
  (∀ op ∈ [Opcode.jt, Opcode.jf], op.nparams = 2) ∧
  Opcode.hlt.nparams = 0 ∧
  (∀ (w : Word) (op : Opcode) (ms : List Mode), decodeWord w = .ok (op, ms) → ms.length = op.nparams) ∧
  (∀ (cells : List Word) (i : Instr), decode cells = .ok i → i.params.length = i.opcode.nparams)

/-- 30_encoding.md R90: a word whose low two digits are no opcode is illegal; ninety values of the two digits are; a step that fetches
such a word, the word 0 among them, faults with InvalidOpcode, and stays so (nothing retries or recovers it). -/
def Obligations.UndefinedOpcodesAreFatal : Prop :=
  (∀ n, n < 100 → ((∀ op : Opcode, op.code ≠ n) ↔ n = 0 ∨ (10 ≤ n ∧ n ≤ 98))) ∧
  ((List.range 100).filter fun n => decide (n = 0 ∨ (10 ≤ n ∧ n ≤ 98))).length = 90 ∧
  (∀ w : Word, 0 ≤ w.toInt → (w.toNat % 100 = 0 ∨ (10 ≤ w.toNat % 100 ∧ w.toNat % 100 ≤ 98)) →
    decodeWord w = .error .invalidOpcode ∧
    ∀ s : State, s.canStep = true → s.pending = [] → s.mem.read s.pc = w →
      step s = .next (takeFault .invalidOpcode s) ∧
      step (takeFault .invalidOpcode s) = .next (takeFault .invalidOpcode s)) ∧
  ∀ s : State, s.canStep = true → s.pending = [] → s.mem.read s.pc = 0 →
    step s = .next (takeFault .invalidOpcode s)

/-- 30_encoding.md R91: a mode digit of 3 to 9 of a parameter the opcode has is illegal, whether or not the parameter would have been
used, and a step that fetches such a word faults with InvalidMode, and stays so. -/
def Obligations.IllegalModeDigitsAreFatal : Prop :=
  ∀ (w : Word) (op : Opcode) (i : Nat), 0 ≤ w.toInt → op.code = w.toNat % 100 → 1 ≤ i → i ≤ op.nparams →
    3 ≤ dig (i + 1) w.toNat →
    decodeWord w = .error .invalidMode ∧
    ∀ s : State, s.canStep = true → s.pending = [] → s.mem.read s.pc = w →
      step s = .next (takeFault .invalidMode s) ∧ step (takeFault .invalidMode s) = .next (takeFault .invalidMode s)

/-- The spec's decisions D8 and D9 at the step: a negative word faults with InvalidOpcode, a digit above the mode group of a word with a
legal opcode with InvalidMode (30_encoding.md R88, R89). -/
def Obligations.NegativeAndOverlongWordsFault : Prop :=
  ∀ (s : State) (w : Word), s.canStep = true → s.pending = [] → s.mem.read s.pc = w →
    (w.toInt < 0 → step s = .next (takeFault .invalidOpcode s)) ∧
    (0 ≤ w.toInt → ∀ op : Opcode, op.code = w.toNat % 100 → w.toNat / 10 ^ (op.nparams + 2) ≠ 0 →
      step s = .next (takeFault .invalidMode s))

/-- Decode and encode agree: for every instruction, every mode and every operand, and whatever cells follow it. -/
def Obligations.DecodeOfEncode : Prop :=
  ∀ (i : Instr) (rest : List Word), decode (encode i ++ rest) = .ok i

/-- Each sequence of cells has one meaning: what decodes is, cell for cell, the encoding of the instruction it decodes to. -/
def Obligations.EncodeOfDecode : Prop :=
  ∀ (cells : List Word) (i : Instr), decode cells = .ok i →
    (encode i).length = i.length ∧ ∀ k, k < i.length → (encode i)[k]? = some (cells.getD k 0)

/-- 30_encoding.md R94 (an inference of the spec): 136 words decode, 99 of them without an Immediate destination. -/
def Obligations.CountOfLegalWords : Prop :=
  (∃ l : List Word, l.Nodup ∧ l.length = 136 ∧ ∀ w : Word, w ∈ l ↔ ∃ x, decodeWord w = .ok x) ∧
  ∃ l : List Word, l.Nodup ∧ l.length = 99 ∧
    ∀ w : Word, w ∈ l ↔ ∃ op ms, decodeWord w = .ok (op, ms) ∧ (assemble op ms []).wellFormed = true

/-! ### Reset and the invariant -/

/-- The reset state: the values of 10_state.md R36 for the empty image (log 4; the empty `pending` and `replies` are the model's, logs 7
and 8). -/
def Obligations.ResetValues : Prop :=
  State.reset.pc = 0 ∧ State.reset.rb = 0 ∧ State.reset.st = .running ∧ State.reset.fault = none ∧
  (∀ a, State.reset.mem.read a = 0) ∧ State.reset.mlen = 0 ∧ State.reset.pending = [] ∧ State.reset.replies = []

/-- `construct` of an image gives every piece of state the value of 10_state.md R36, whatever instance was there
(45_host_operations.md R152), and meets the invariant. That `fault` is cleared is the spec's decision D6. -/
def Obligations.ConstructGivesResetValues : Prop :=
  ∀ (image : List Int) (s : State), image.length ≤ maxAddr + 1 → (∀ v ∈ image, InWord v) →
    ∃ t, transact (.construct image) s = .next (t, .ok) ∧
      t.pc = 0 ∧ t.rb = 0 ∧ t.st = .running ∧ t.fault = none ∧ t.mlen = image.length ∧
      (∀ a, (t.mem.read a).toInt = image.getD a 0) ∧ t.pending = s.pending ∧ t.replies = s.replies ∧ t.Inv

/-- The invariant holds at reset. -/
def Obligations.InvariantHoldsAtReset : Prop := State.reset.Inv

/-- Every step keeps the invariant of 10_state.md R35 (with the bounds of R23, R28, R34), whatever the host issues. -/
def Obligations.StepKeepsInvariant : Prop :=
  ∀ s t : State, s.Inv → step s = .next t → t.Inv

/-! ### The step -/

/-- 45_host_operations.md R151: where a step is admitted and the host has nothing to issue before it, the step is the decoded
instruction's own. (When the host issues is the model's choice, log 7.) -/
def Obligations.StepRunsTheDecodedInstruction : Prop :=
  ∀ (s : State) (i : Instr), s.fault = none → s.st = .running →
    (∀ t ts, s.pending = t :: ts → t.admitted s = false) →
    decode [s.mem.read s.pc, s.mem.read (s.pc + 1), s.mem.read (s.pc + 2), s.mem.read (s.pc + 3)] = .ok i →
    step s = exec i s

/-- 45_host_operations.md R150, R151, 60_exceptions.md R172: an admitted `step` transaction is the instance's own step. Its next state is
that of the decoded instruction, or the fault of a word that does not decode, and it returns Ok where the step raised nothing and the
cause where it raised one. What it does to `fault` is the spec's decision D6. -/
def Obligations.StepTransactionRunsTheInstruction : Prop :=
  ∀ s : State, s.fault = none → s.st = .running →
    Transaction.admitted .step s = true ∧
    (∀ t, cycle s = .next t → t.fault = none → transact .step s = .next (t, .ok)) ∧
    (∀ t c, cycle s = .next t → t.fault = some c → transact .step s = .next (t, .cause c)) ∧
    (∀ i t, decode [s.mem.read s.pc, s.mem.read (s.pc + 1), s.mem.read (s.pc + 2), s.mem.read (s.pc + 3)] = .ok i →
      exec i s = .next t →
      (t.fault = none → transact .step s = .next (t, .ok)) ∧ ∀ c, t.fault = some c → transact .step s = .next (t, .cause c)) ∧
    ∀ r, decodeWord (s.mem.read s.pc) = .error r →
      transact .step s = .next (takeFault (rejectCause r) s, .cause (rejectCause r))

/-- 45_host_operations.md R159 as the model takes it (log 7): the host's next transaction is issued when it is admitted or the instance
cannot step; its effect is the step's, it leaves the queue, and its result is kept. -/
def Obligations.StepIssuesTheHostsTransaction : Prop :=
  ∀ (s : State) (t : Transaction) (ts : List Transaction), s.pending = t :: ts →
    (t.admitted s = true ∨ s.canStep = false) →
    ∃ s' r, transact t { s with pending := ts } = .next (s', r) ∧ step s = .next { s' with replies := s'.replies ++ [r] } ∧
      s'.pending = ts

/-- With nothing for the host to issue, an instance that cannot step stays as it is (45_host_operations.md R156, R157, R161; the
spec's decision D19 allows the stutter, log 6). -/
def Obligations.StoppedOrWaitingInstanceStays : Prop :=
  ∀ s : State, s.pending = [] → (s.fault ≠ none ∨ s.st ≠ .running) → step s = .next s

/-- With the spec's unbounded memory every step answers a next state, in every state (20_memory.md R50: "No failure modes beyond
invalid (negative) addressing", and that one is a recorded fault). -/
def Obligations.EveryStepAnswersANextState : Prop :=
  (∀ s : State, ∃ t, step s = .next t) ∧ ∀ (i : Instr) (s : State), ∃ t, exec i s = .next t

/-- 60_exceptions.md R172, 00_scope.md R10: a step that raises changes nothing but `fault`, growth of the memory included (the spec's
decisions D6 and D7). -/
def Obligations.RaisingStepChangesOnlyFault : Prop :=
  (∀ (s t : State) (c : Cause), s.fault = none → cycle s = .next t → t.fault = some c → t = takeFault c s) ∧
  (∀ (i : Instr) (s t : State), exec i s = .next t → t.fault = s.fault ∨ ∃ c, t = takeFault c s) ∧
  ∀ (c : Cause) (s : State), takeFault c s = { s with fault := some c }

/-- 10_state.md R31: a recorded fault is never cleared or overwritten but by `construct`, and the faulted instance never changes. -/
def Obligations.FaultIsSticky : Prop :=
  ∀ (s t : State) (c : Cause), s.fault = some c → (∀ image ts, s.pending ≠ .construct image :: ts) → step s = .next t →
    t.fault = some c ∧ t.pc = s.pc ∧ t.rb = s.rb ∧ t.st = s.st ∧ t.mem = s.mem ∧ t.mlen = s.mlen

/-- 10_state.md R28: "no operations change state out of Terminated", but `construct` (R29). -/
def Obligations.NothingLeavesTerminated : Prop :=
  ∀ s t : State, s.st = .terminated → (∀ image ts, s.pending ≠ .construct image :: ts) → step s = .next t →
    t.st = .terminated ∧ t.fault = s.fault ∧ t.pc = s.pc ∧ t.rb = s.rb ∧ t.mem = s.mem ∧ t.mlen = s.mlen

/-- 10_state.md R29, the transitions of `st` in a step: only IN, OUT and HLT change it, each to its own variant. -/
def Obligations.OnlyInOutHltChangeSt : Prop :=
  ∀ (i : Instr) (s t : State), exec i s = .next t → t.st ≠ s.st →
    (∃ p d, i = .inp p ∧ t.st = .awaitingInput d ∧ d ≤ maxAddr) ∨ (∃ p v, i = .out p ∧ t.st = .hasOutput v) ∨
      (i = .hlt ∧ t.st = .terminated)

/-- 10_state.md R22, R26 and 42_relbase.md R131: no instruction but ARB changes the relative base, and no transaction but `construct`
does. -/
def Obligations.OnlyArbChangesRb : Prop :=
  (∀ (i : Instr) (s t : State), exec i s = .next t → t.rb ≠ s.rb → ∃ p, i = .arb p) ∧
  ∀ (tr : Transaction) (s t : State) (r : Reply), transact tr s = .next (t, r) → tr ≠ .step → t.rb ≠ s.rb →
    ∃ image, tr = .construct image

/-- 45_host_operations.md R151: the step is a function of `(pc, rb, mem)`; in particular no value depends on `mlen` (10_state.md R34) or
on what the host is going to issue. -/
def Obligations.StepDependsOnPcRbMemOnly : Prop :=
  ∀ s s' t : State, s.canStep = true → s'.canStep = true → s'.pc = s.pc → s'.rb = s.rb → s'.mem = s.mem → cycle s = .next t →
    ∃ t', cycle s' = .next t' ∧ t'.pc = t.pc ∧ t'.rb = t.rb ∧ t'.st = t.st ∧ t'.fault = t.fault ∧ t'.mem = t.mem

/-- 10_state.md R34, 20_memory.md R54: `mlen` never decreases in a step of the instance, and growth changes no cell: an instruction
that stores nothing leaves the memory equal, however far it makes it grow. -/
def Obligations.GrowthNeverShrinksOrWrites : Prop :=
  (∀ s t : State, cycle s = .next t → s.mlen ≤ t.mlen) ∧
  ∀ (i : Instr) (s t : State), ¬ Stores i → exec i s = .next t → t.mem = s.mem ∧ s.mlen ≤ t.mlen

/-- 41_jumps.md R124: an instruction that jumps to itself, and does so, spins for ever: a JT whose condition is not 0 or a JF whose
condition is 0, in any mode, whose target, in any mode, is its own address (so the idioms `JT #c` with c not 0 and `JF #0` of
30_encoding.md R96 too). Its first step only makes the memory grow, and the state after that steps to itself, so no number of steps
ends it or faults. That true means not 0 is general knowledge (G3). -/
def Obligations.JumpToItselfSpins : Prop :=
  ∀ (s : State) (i : Instr) (p1 p2 : Param), s.canStep = true → s.pending = [] → s.pc + 3 ≤ maxAddr →
    decode (fetchCells s) = .ok i → (i = .jt p1 p2 ∧ readValue s p1 ≠ 0 ∨ i = .jf p1 p2 ∧ readValue s p1 = 0) →
    Readable s.rb p1 → Readable s.rb p2 → (readValue s p2).toInt = s.pc →
    ∃ t, step s = .next t ∧ step t = .next t ∧
      t = { s with mlen := max (max s.mlen (s.pc + 3)) (max (readReach s.rb p1) (readReach s.rb p2)) }

/-- 20_memory.md R67, 70_reset_and_hazards.md R205: a word that ADD, MUL, LT or EQ stores in one of the four cells the next step fetches
from is fetched as stored: as the instruction word (k = 0) or as an operand. The results of LT and EQ are general knowledge (G2). -/
def Obligations.NextFetchSeesTheStore : Prop :=
  ∀ (p1 p2 p3 : Param) (s : State) (k : Nat), k < 4 → s.pc + 4 ≤ maxAddr → Readable s.rb p1 → Readable s.rb p2 → Writable s.rb p3 →
    destAddr s.rb p3 = s.pc + 4 + k →
    (InWord ((readValue s p1).toInt + (readValue s p2).toInt) →
      ∃ t w, exec (.add p1 p2 p3) s = .next t ∧ t.pc = s.pc + 4 ∧ (fetchCells t)[k]? = some w ∧
        w.toInt = (readValue s p1).toInt + (readValue s p2).toInt) ∧
    (InWord ((readValue s p1).toInt * (readValue s p2).toInt) →
      ∃ t w, exec (.mul p1 p2 p3) s = .next t ∧ t.pc = s.pc + 4 ∧ (fetchCells t)[k]? = some w ∧
        w.toInt = (readValue s p1).toInt * (readValue s p2).toInt) ∧
    (∃ t, exec (.lt p1 p2 p3) s = .next t ∧ t.pc = s.pc + 4 ∧
      (fetchCells t)[k]? = some (if (readValue s p1).toInt < (readValue s p2).toInt then 1 else 0)) ∧
    ∃ t, exec (.eq p1 p2 p3) s = .next t ∧ t.pc = s.pc + 4 ∧
      (fetchCells t)[k]? = some (if (readValue s p1).toInt = (readValue s p2).toInt then 1 else 0)

/-- An instruction placed by `withFetchWord` is the one the decoder reads from the table's bits, and the next step runs it (log 15). -/
def Obligations.PlacedInstructionRunsNext : Prop :=
  ∀ (s : State) (nbits w : Nat) (i : Instr), decodeTableWord nbits w = some i →
    step (s.withFetchWord nbits w) = exec i (s.withFetchWord nbits w)

/-! ### Memory -/

/-- 20_memory.md R52, `MemRead`, whole: its value, its growth, its only fault; a cell never written reads 0. -/
def Obligations.MemReadPrimitive : Prop :=
  (∀ (a : Int) (s : State), a < 0 → memRead Config.memLimit a s = .error (.raise .invalidAddress)) ∧
  (∀ (a : Nat) (s : State), a < s.mlen → memRead Config.memLimit a s = .ok (s.mem.read a, s)) ∧
  (∀ (a : Nat) (s : State), s.mlen ≤ a → memRead Config.memLimit a s = .ok (s.mem.read a, { s with mlen := a + 1 })) ∧
  ∀ (a : Nat) (s : State), (∀ c ∈ s.mem, c.1 ≠ a) → s.mem.read a = 0

/-- 20_memory.md R53, `MemWrite`: the cell holds the word, no other cell changes, growth as for a read, no fault at an address; the
listed form stays canonical. -/
def Obligations.MemWritePrimitive : Prop :=
  (∀ (a : Int) (v : Word) (s : State), a < 0 → memWrite Config.memLimit a v s = .error (.raise .invalidAddress)) ∧
  ∀ (a : Nat) (v : Word) (s : State), ∃ t, memWrite Config.memLimit a v s = .ok t ∧
    t.mem.read a = v ∧ (∀ b, b ≠ a → t.mem.read b = s.mem.read b) ∧ (s.mem.wf = true → t.mem.wf = true) ∧
    t.mlen = (if s.mlen ≤ a then a + 1 else s.mlen) ∧
    t.pc = s.pc ∧ t.rb = s.rb ∧ t.st = s.st ∧ t.fault = s.fault ∧ t.pending = s.pending ∧ t.replies = s.replies

/-- 10_state.md R35 (e): in every state that meets the invariant the cells at and past `mlen` read 0. -/
def Obligations.CellsPastMlenReadZero : Prop :=
  ∀ (s : State) (a : Nat), s.Inv → s.mlen ≤ a → s.mem.read a = 0

/-- 20_memory.md R62, the spec's decision D3: in a build with a finite limit an access at or past it has no step, never a value: the
primitives, the fetch of an instruction word there, an input for a cell there, and (the model's choice, log 3) a `construct` of an
image that reaches there. Below the limit the primitives are those without one. -/
def Obligations.FiniteMemLimitIsStuck : Prop :=
  (∀ (limit a : Nat) (v : Word) (s : State),
    (limit ≤ a → memRead (some limit) a s = .error (.stuck .beyondMemLimit) ∧
      memWrite (some limit) a v s = .error (.stuck .beyondMemLimit)) ∧
    (a < limit → memRead (some limit) a s = memRead none a s ∧ memWrite (some limit) a v s = memWrite none a v s)) ∧
  (∀ (limit : Nat) (s : State), s.canStep = true → s.pending = [] → limit ≤ s.pc →
    stepWith (some limit) s = .fault .beyondMemLimit) ∧
  (∀ (limit d : Nat) (x : Int) (s : State), s.fault = none → s.st = .awaitingInput d → InWord x → limit ≤ d →
    transactOn (.ofLimit (some limit)) (.resumeWithInput x) s = .fault .beyondMemLimit) ∧
  ∀ (limit : Nat) (image : List Int) (s : State), image.length ≤ maxAddr + 1 → (∀ v ∈ image, InWord v) → limit < image.length →
    transactOn (.ofLimit (some limit)) (.construct image) s = .fault .beyondMemLimit

/-- 00_scope.md R6, 20_memory.md R62, the spec's decision D3: the machine with `MEM_LIMIT` as an argument. With none it is the spec's
machine. With a finite limit every instruction, transaction and step is stuck or does what the spec's does, so there is never another
value and never a wrap; and an instruction that completes without one completes exactly where the memory it leaves is within the
limit, and is stuck where it is not. -/
def Obligations.FiniteBuildRunsWhatFits : Prop :=
  (∀ (i : Instr) (s : State), execWith none i s = exec i s) ∧ (∀ s : State, stepWith none s = step s) ∧
  (∀ (tr : Transaction) (s : State), transactOn (.ofLimit none) tr s = transact tr s) ∧
  (∀ (limit : Nat) (i : Instr) (s : State),
    execWith (some limit) i s = .fault .beyondMemLimit ∨ execWith (some limit) i s = exec i s) ∧
  (∀ (limit : Nat) (s : State), stepWith (some limit) s = .fault .beyondMemLimit ∨ stepWith (some limit) s = step s) ∧
  (∀ (limit : Nat) (tr : Transaction) (s : State),
    transactOn (.ofLimit (some limit)) tr s = .fault .beyondMemLimit ∨ transactOn (.ofLimit (some limit)) tr s = transact tr s) ∧
  ∀ (limit : Nat) (i : Instr) (s t : State), s.mlen ≤ limit → exec i s = .next t → t.fault = none →
    execWith (some limit) i s = if t.mlen ≤ limit then .next t else .fault .beyondMemLimit

/-- 20_memory.md R62, the spec's decision D3, with the invariant of 10_state.md R35: every step of a build with a finite limit keeps the
invariant and the memory within the limit, whatever the host issues. -/
def Obligations.FiniteBuildKeepsInvariant : Prop :=
  ∀ (limit : Nat) (s t : State), s.Inv → s.mlen ≤ limit → stepWith (some limit) s = .next t → t.Inv ∧ t.mlen ≤ limit

/-- Memories in canonical form that read alike are the same list: the state holds nothing of the memory but its contents (10_state.md
R33). -/
def Obligations.CanonicalMemoriesAreEqual : Prop :=
  ∀ m m' : Memory, m.wf = true → m'.wf = true → (∀ a, m.read a = m'.read a) → m = m'

/-! ### What each instruction does where it completes -/

/-- ADD, 40_alu.md R112: where the successor is an address, the sources can be read, the destination can be written and the sum is a
word, it writes the sum to the destination, `pc` passes the four cells, the memory reaches past every cell accessed, and nothing else
changes. -/
def Obligations.AddCompletes : Prop :=
  ∀ (p1 p2 p3 : Param) (s : State), s.pc + 4 ≤ maxAddr → Readable s.rb p1 → Readable s.rb p2 → Writable s.rb p3 →
    InWord ((readValue s p1).toInt + (readValue s p2).toInt) →
    exec (.add p1 p2 p3) s = .next { s with
      pc := s.pc + 4
      mem := s.mem.write (destAddr s.rb p3) (Word.ofInt ((readValue s p1).toInt + (readValue s p2).toInt))
      mlen := max (max s.mlen (s.pc + 4)) (max (max (readReach s.rb p1) (readReach s.rb p2)) (destAddr s.rb p3 + 1)) }

/-- MUL, 40_alu.md R113: as ADD with the product. -/
def Obligations.MulCompletes : Prop :=
  ∀ (p1 p2 p3 : Param) (s : State), s.pc + 4 ≤ maxAddr → Readable s.rb p1 → Readable s.rb p2 → Writable s.rb p3 →
    InWord ((readValue s p1).toInt * (readValue s p2).toInt) →
    exec (.mul p1 p2 p3) s = .next { s with
      pc := s.pc + 4
      mem := s.mem.write (destAddr s.rb p3) (Word.ofInt ((readValue s p1).toInt * (readValue s p2).toInt))
      mlen := max (max s.mlen (s.pc + 4)) (max (max (readReach s.rb p1) (readReach s.rb p2)) (destAddr s.rb p3 + 1)) }

/-- LT, 40_alu.md R114: 1 where parameter 1 is less than parameter 2 as signed integers, else 0 (general knowledge G2). -/
def Obligations.LtCompletes : Prop :=
  ∀ (p1 p2 p3 : Param) (s : State), s.pc + 4 ≤ maxAddr → Readable s.rb p1 → Readable s.rb p2 → Writable s.rb p3 →
    exec (.lt p1 p2 p3) s = .next { s with
      pc := s.pc + 4
      mem := s.mem.write (destAddr s.rb p3) (if (readValue s p1).toInt < (readValue s p2).toInt then 1 else 0)
      mlen := max (max s.mlen (s.pc + 4)) (max (max (readReach s.rb p1) (readReach s.rb p2)) (destAddr s.rb p3 + 1)) }

/-- EQ, 40_alu.md R115: 1 where the two values are equal, else 0 (general knowledge G2). -/
def Obligations.EqCompletes : Prop :=
  ∀ (p1 p2 p3 : Param) (s : State), s.pc + 4 ≤ maxAddr → Readable s.rb p1 → Readable s.rb p2 → Writable s.rb p3 →
    exec (.eq p1 p2 p3) s = .next { s with
      pc := s.pc + 4
      mem := s.mem.write (destAddr s.rb p3) (if (readValue s p1).toInt = (readValue s p2).toInt then 1 else 0)
      mlen := max (max s.mlen (s.pc + 4)) (max (max (readReach s.rb p1) (readReach s.rb p2)) (destAddr s.rb p3 + 1)) }

/-- JT, 41_jumps.md R120, R122: with a condition that is not 0 and a target that is not negative `pc` takes the target; with a condition
0 it passes the three cells, whatever the target. That true means not 0 is general knowledge (G3). -/
def Obligations.JtCompletes : Prop :=
  ∀ (p1 p2 : Param) (s : State), s.pc + 3 ≤ maxAddr → Readable s.rb p1 → Readable s.rb p2 →
    (readValue s p1 ≠ 0 → 0 ≤ (readValue s p2).toInt →
      exec (.jt p1 p2) s = .next { s with
        pc := (readValue s p2).toInt.toNat
        mlen := max (max s.mlen (s.pc + 3)) (max (readReach s.rb p1) (readReach s.rb p2)) }) ∧
    (readValue s p1 = 0 →
      exec (.jt p1 p2) s = .next { s with
        pc := s.pc + 3
        mlen := max (max s.mlen (s.pc + 3)) (max (readReach s.rb p1) (readReach s.rb p2)) })

/-- JF, 41_jumps.md R121, R122: as JT with the condition inverted (general knowledge G3). -/
def Obligations.JfCompletes : Prop :=
  ∀ (p1 p2 : Param) (s : State), s.pc + 3 ≤ maxAddr → Readable s.rb p1 → Readable s.rb p2 →
    (readValue s p1 = 0 → 0 ≤ (readValue s p2).toInt →
      exec (.jf p1 p2) s = .next { s with
        pc := (readValue s p2).toInt.toNat
        mlen := max (max s.mlen (s.pc + 3)) (max (readReach s.rb p1) (readReach s.rb p2)) }) ∧
    (readValue s p1 ≠ 0 →
      exec (.jf p1 p2) s = .next { s with
        pc := s.pc + 3
        mlen := max (max s.mlen (s.pc + 3)) (max (readReach s.rb p1) (readReach s.rb p2)) })

/-- ARB, 42_relbase.md R130: the value, read at the old base, is added to the base. -/
def Obligations.ArbCompletes : Prop :=
  ∀ (p : Param) (s : State), s.pc + 2 ≤ maxAddr → Readable s.rb p → InWord (s.rb.toInt + (readValue s p).toInt) →
    exec (.arb p) s = .next { s with
      pc := s.pc + 2
      rb := Word.ofInt (s.rb.toInt + (readValue s p).toInt)
      mlen := max (max s.mlen (s.pc + 2)) (readReach s.rb p) }

/-- IN, 43_io.md R135: `st` becomes AwaitingInput with the destination, `pc` passes the two cells (the spec's decision D12), no cell is
written and the memory grows only as far as the instruction's own cells. -/
def Obligations.InCompletes : Prop :=
  ∀ (p : Param) (s : State), s.pc + 2 ≤ maxAddr → Writable s.rb p →
    exec (.inp p) s = .next { s with
      pc := s.pc + 2
      st := .awaitingInput (destAddr s.rb p)
      mlen := max s.mlen (s.pc + 2) }

/-- OUT, 43_io.md R136: `st` becomes HasOutput with the value, `pc` passes the two cells (the spec's decision D12). -/
def Obligations.OutCompletes : Prop :=
  ∀ (p : Param) (s : State), s.pc + 2 ≤ maxAddr → Readable s.rb p →
    exec (.out p) s = .next { s with
      pc := s.pc + 2
      st := .hasOutput (readValue s p)
      mlen := max (max s.mlen (s.pc + 2)) (readReach s.rb p) }

/-- HLT, 44_halt.md R145: `st` becomes Terminated, `pc` passes the one cell (the spec's decision D13), only the instruction word is
read. -/
def Obligations.HltCompletes : Prop :=
  ∀ s : State, s.pc + 1 ≤ maxAddr →
    exec .hlt s = .next { s with pc := s.pc + 1, st := .terminated, mlen := max s.mlen (s.pc + 1) }

/-! ### Frames -/

/-- What ADD, MUL, LT, EQ leave unchanged, whatever the operands: the relative base, `st`, the host's lists, `fault` unless the step
raises, and every cell but the one at the address `wrParam` gives for parameter 3 (40_alu.md R112 to R116). The memory only grows. -/
def Obligations.AluFrame : Prop :=
  ∀ f ∈ [Instr.add, Instr.mul, Instr.lt, Instr.eq], ∀ (p1 p2 p3 : Param) (s t : State), exec (f p1 p2 p3) s = .next t →
    t.rb = s.rb ∧ t.st = s.st ∧ t.pending = s.pending ∧ t.replies = s.replies ∧ s.mlen ≤ t.mlen ∧
    (t.fault = s.fault ∨ ∃ c, t = takeFault c s) ∧
    (∀ d, wrParam p3 s = .ok d → ∀ a, a ≠ d → t.mem.read a = s.mem.read a) ∧
    ((∀ d, wrParam p3 s ≠ .ok d) → ∀ a, t.mem.read a = s.mem.read a)

/-- What IN, OUT, JT, JF, ARB, HLT leave unchanged, whatever the operands: every cell; the relative base but for ARB; `st` but for IN,
OUT, HLT; the host's lists; `fault` unless the step raises. The memory only grows (41_jumps.md R120, R121; 42_relbase.md R130; 43_io.md
R135, R136; 44_halt.md R145). -/
def Obligations.NonStoringFrame : Prop :=
  ∀ (i : Instr) (s t : State), ¬ Stores i → exec i s = .next t →
    (∀ a, t.mem.read a = s.mem.read a) ∧ ((∀ p, i ≠ .arb p) → t.rb = s.rb) ∧
    ((∀ p, i ≠ .inp p) → (∀ p, i ≠ .out p) → i ≠ .hlt → t.st = s.st) ∧
    t.pending = s.pending ∧ t.replies = s.replies ∧ s.mlen ≤ t.mlen ∧ (t.fault = s.fault ∨ ∃ c, t = takeFault c s)

/-! ### Where instructions raise -/

/-- 60_exceptions.md R176 (the spec's decision D10) for ADD, MUL, LT, EQ: the first of the successor's overflow and the faults of
parameters 1, 2, 3 is taken; ADD and MUL then overflow where their result is no word. -/
def Obligations.AluFaultsInOrder : Prop :=
  (∀ f ∈ [Instr.add, Instr.mul, Instr.lt, Instr.eq], ∀ (p1 p2 p3 : Param) (s : State) (c : Cause),
    firstFault [rangeFault (s.pc + 4), readFault s.rb p1, readFault s.rb p2, writeFault s.rb p3] = some c →
    exec (f p1 p2 p3) s = .next (takeFault c s)) ∧
  ∀ (p1 p2 p3 : Param) (s : State), s.pc + 4 ≤ maxAddr → Readable s.rb p1 → Readable s.rb p2 → Writable s.rb p3 →
    (¬ InWord ((readValue s p1).toInt + (readValue s p2).toInt) →
      exec (.add p1 p2 p3) s = .next (takeFault .arithmeticOverflow s)) ∧
    (¬ InWord ((readValue s p1).toInt * (readValue s p2).toInt) →
      exec (.mul p1 p2 p3) s = .next (takeFault .arithmeticOverflow s))

/-- 60_exceptions.md R176, 41_jumps.md R122 for JT and JF: both parameters are resolved whether or not the jump is taken; a taken jump
to a negative target raises InvalidAddress (the spec's decisions D10, D11 and reading RD1). -/
def Obligations.JumpFaultsInOrder : Prop :=
  (∀ f ∈ [Instr.jt, Instr.jf], ∀ (p1 p2 : Param) (s : State) (c : Cause),
    firstFault [rangeFault (s.pc + 3), readFault s.rb p1, readFault s.rb p2] = some c →
    exec (f p1 p2) s = .next (takeFault c s)) ∧
  ∀ (p1 p2 : Param) (s : State), s.pc + 3 ≤ maxAddr → Readable s.rb p1 → Readable s.rb p2 → (readValue s p2).toInt < 0 →
    (readValue s p1 ≠ 0 → exec (.jt p1 p2) s = .next (takeFault .invalidAddress s)) ∧
    (readValue s p1 = 0 → exec (.jf p1 p2) s = .next (takeFault .invalidAddress s))

/-- 60_exceptions.md R174, R176 for ARB, IN, OUT, HLT (the spec's decisions D2, D10, D14). -/
def Obligations.ShortInstructionFaultsInOrder : Prop :=
  ∀ (p : Param) (s : State) (c : Cause),
    (firstFault [rangeFault (s.pc + 2), readFault s.rb p] = some c →
      exec (.arb p) s = .next (takeFault c s) ∧ exec (.out p) s = .next (takeFault c s)) ∧
    (firstFault [rangeFault (s.pc + 2), writeFault s.rb p] = some c → exec (.inp p) s = .next (takeFault c s)) ∧
    (s.pc + 2 ≤ maxAddr → Readable s.rb p → ¬ InWord (s.rb.toInt + (readValue s p).toInt) →
      exec (.arb p) s = .next (takeFault .arithmeticOverflow s)) ∧
    (maxAddr < s.pc + 1 → exec .hlt s = .next (takeFault .arithmeticOverflow s))

/-- 30_encoding.md R92: an Immediate write parameter decodes, and then the instruction always faults: with InvalidWriteMode, unless an
earlier parameter (or, by the spec's decision D2, the successor's address) faults first. -/
def Obligations.ImmediateDestinationAlwaysFaults : Prop :=
  (∀ i : Instr, i.wellFormed = false → ∃ ms, decodeWord (BitVec.ofNat 64 i.wordNat) = .ok (i.opcode, ms)) ∧
  (∀ (i : Instr) (s : State), i.wellFormed = false → ∃ c, exec i s = .next (takeFault c s)) ∧
  (∀ f ∈ [Instr.add, Instr.mul, Instr.lt, Instr.eq], ∀ (p1 p2 p3 : Param) (s : State), p3.mode = .immediate →
    s.pc + 4 ≤ maxAddr → Readable s.rb p1 → Readable s.rb p2 →
    exec (f p1 p2 p3) s = .next (takeFault .invalidWriteMode s)) ∧
  ∀ (p : Param) (s : State), p.mode = .immediate → s.pc + 2 ≤ maxAddr →
    exec (.inp p) s = .next (takeFault .invalidWriteMode s)

/-! ### The host's transactions -/

/-- 45_host_operations.md R153: an input value lands at the recorded destination, exactly there, and the machine runs again; `pc` and
`rb` stay. A value that is no word is refused and nothing changes (the spec's decision D20). -/
def Obligations.ResumeWritesTheRecordedCell : Prop :=
  ∀ (s : State) (d : Nat) (x : Int), s.fault = none → s.st = .awaitingInput d →
    (InWord x → ∃ t, transact (.resumeWithInput x) s = .next (t, .ok) ∧ (t.mem.read d).toInt = x ∧
      (∀ a, a ≠ d → t.mem.read a = s.mem.read a) ∧ t.mlen = max s.mlen (d + 1) ∧
      t.st = .running ∧ t.pc = s.pc ∧ t.rb = s.rb ∧ t.fault = none ∧ t.pending = s.pending ∧ t.replies = s.replies) ∧
    (¬ InWord x → transact (.resumeWithInput x) s = .next (s, .refused))

/-- 45_host_operations.md R154: an acknowledge is admitted in HasOutput with no fault, sets `st` to Running and changes nothing else; the
value is read by `inspect` before it and is gone after it. -/
def Obligations.AcknowledgeOnlyRunsAgain : Prop :=
  (∀ s : State, Transaction.admitted .acknowledgeOutput s = true ↔ s.fault = none ∧ ∃ v, s.st = .hasOutput v) ∧
  ∀ (s : State) (v : Word), s.fault = none → s.st = .hasOutput v →
    transact .acknowledgeOutput s = .next ({ s with st := .running }, .ok) ∧
    ∃ w, transact .inspect s = .next (s, .view w) ∧ w.st = .hasOutput v

/-- 45_host_operations.md R155: `inspect` is admitted in every state and changes nothing; it returns `st`, `pc`, exactly the cells below
`mlen`, and the recorded fault (the spec's decision D6). -/
def Obligations.InspectChangesNothing : Prop :=
  ∀ s : State, ∃ w, transact .inspect s = .next (s, .view w) ∧ w.st = s.st ∧ w.pc = s.pc ∧ w.fault = s.fault ∧
    w.cells.length = s.mlen ∧ ∀ a, a < s.mlen → w.cells[a]? = some (s.mem.read a)

/-- 45_host_operations.md R156, R157: a transaction that is not admitted changes nothing; it returns Misuse, or the recorded cause of a
faulted instance (the spec's decisions D6 and D19). That a `resumeWithInput` does so even where its value is no word, and is not
refused for the value, is the model's choice (log 11). -/
def Obligations.TransactionNotAdmittedChangesNothing : Prop :=
  (∀ s : State, s.fault = none → s.st ≠ .running → transact .step s = .next (s, .misuse)) ∧
  (∀ (s : State) (x : Int), s.fault = none → (∀ d, s.st ≠ .awaitingInput d) →
    transact (.resumeWithInput x) s = .next (s, .misuse)) ∧
  (∀ s : State, s.fault = none → (∀ v, s.st ≠ .hasOutput v) → transact .acknowledgeOutput s = .next (s, .misuse)) ∧
  ∀ (s : State) (c : Cause) (x : Int), s.fault = some c →
    transact .step s = .next (s, .cause c) ∧ transact (.resumeWithInput x) s = .next (s, .cause c) ∧
      transact .acknowledgeOutput s = .next (s, .cause c)

/-- An image that is not a sequence of words is refused and nothing changes (45_host_operations.md R152, the spec's decision D20). -/
def Obligations.ConstructRefusesWhatIsNoImage : Prop :=
  ∀ (image : List Int) (s : State), (∃ v ∈ image, ¬ InWord v) → transact (.construct image) s = .next (s, .refused)

/-- 45_host_operations.md R151, R161 and the suspend/resume property T10: an IN and the resume after it write exactly the value to exactly
the destination the IN resolved, with no other cell changed, and the machine runs on after the IN. -/
def Obligations.SuspendThenResume : Prop :=
  ∀ (p : Param) (s : State) (x : Int), s.fault = none → s.pc + 2 ≤ maxAddr → Writable s.rb p → InWord x →
    ∃ t u, exec (.inp p) s = .next t ∧ t.mem = s.mem ∧ transact (.resumeWithInput x) t = .next (u, .ok) ∧
      u.st = .running ∧ u.pc = s.pc + 2 ∧ u.rb = s.rb ∧ u.mem = s.mem.write (destAddr s.rb p) (Word.ofInt x)

/-! ### The run helper and several instances -/

/-- 45_host_operations.md R158, 70_reset_and_hazards.md R208: how a run of the helper leaves the instance, and its turns at the hand-overs.
A run that returned its outputs left it final, one that returned a cause left it faulted with that cause, one out of inputs left it
waiting for one; nothing is stuck with the spec's unbounded memory; the invariant is kept throughout. A turn in HasOutput adds the value
after the outputs so far and acknowledges it; a turn in AwaitingInput takes the first input left and writes it; a turn in Terminated
returns the outputs. The fuel is the model's choice (log 16). -/
def Obligations.RunHelperOutcomes : Prop :=
  (∀ (fuel : Nat) (inputs outs : List Word) (s t : State) (e : RunEnd), s.Inv → runHelper fuel inputs outs s = (e, t) →
    t.Inv ∧ (∀ r, e = .ok r → t.Final ∧ outs <+: r) ∧ (∀ c, e = .error c → t.fault = some c ∧ t.st = .running) ∧
    (e = .inputExhausted → t.fault = none ∧ ∃ d, t.st = .awaitingInput d) ∧ ∀ f, e ≠ .stuck f) ∧
  (∀ (fuel : Nat) (inputs outs : List Word) (s : State) (v : Word), s.fault = none → s.st = .hasOutput v →
    runHelper (fuel + 1) inputs outs s = runHelper fuel inputs (outs ++ [v]) { s with st := .running }) ∧
  (∀ (fuel : Nat) (x : Word) (xs outs : List Word) (s : State) (d : Nat), s.fault = none → s.st = .awaitingInput d →
    runHelper (fuel + 1) (x :: xs) outs s =
      runHelper fuel xs outs { s with st := .running, mem := s.mem.write d x, mlen := max s.mlen (d + 1) }) ∧
  ∀ (fuel : Nat) (inputs outs : List Word) (s : State), s.st = .terminated →
    runHelper (fuel + 1) inputs outs s = (.ok outs, s)

/-- 60_exceptions.md R190: the executions of a system of instances are the interleavings of their own executions. What a schedule leaves
at one place is what that place's own transactions, in their order, leave of it alone. -/
def Obligations.InstancesAreIndependent : Prop :=
  ∀ (sys : System) (schedule : List (Nat × Transaction)) (k : Nat),
    (System.runSchedule sys schedule)[k]? =
      sys[k]?.map fun slot =>
        ((schedule.filter fun e => e.1 == k).map Prod.snd).foldl (fun o t => advanceSlot t o) slot
end

