-- ==== Sys2Proof/Laws/Decode.lean ====
section
/-! SUPPORT. The decoder said once: which words decode to what (30_encoding.md R85), in terms of the encoder's mode group. -/

namespace Sys2Proof

theorem code_lt (op : Opcode) : op.code < 100 := by cases op <;> decide

theorem ofCode_code (op : Opcode) : Opcode.ofCode op.code = some op := by cases op <;> rfl

theorem code_of_ofCode {n : Nat} {op : Opcode} (h : Opcode.ofCode n = some op) : op.code = n := by
  simpa using List.find?_some h

theorem code_injective {op op' : Opcode} (h : op.code = op'.code) : op = op' :=
  Option.some.inj (by rw [← ofCode_code, h, ofCode_code])

theorem ofCode_eq_none {n : Nat} : Opcode.ofCode n = none ↔ ∀ op : Opcode, op.code ≠ n := by
  constructor
  · intro h op ho
    rw [← ho, ofCode_code] at h
    cases h
  · intro h
    cases hc : Opcode.ofCode n with
    | none => rfl
    | some op => exact absurd (code_of_ofCode hc) (h op)

theorem digit_le (m : Mode) : m.digit ≤ 2 := by cases m <;> decide

theorem digit_injective {m m' : Mode} (h : m.digit = m'.digit) : m = m' := by
  cases m <;> cases m' <;> first | rfl | exact absurd h (by decide)

theorem ofDigit_eq_some {d : Nat} {m : Mode} : Mode.ofDigit d = some m ↔ m.digit = d := by
  unfold Mode.ofDigit
  cases m <;> simp only [Mode.digit] <;> (repeat' split) <;> simp <;> omega

theorem ofDigit_eq_none {d : Nat} : Mode.ofDigit d = none ↔ 2 < d := by
  unfold Mode.ofDigit
  (repeat' split) <;> simp <;> omega

/-- The modes a mode group decodes to are those it encodes. -/
theorem decodeModes_eq_ok {n g : Nat} {ms : List Mode} :
    decodeModes n g = .ok ms ↔ ms.length = n ∧ encodeModes ms = g := by
  induction n generalizing g ms with
  | zero =>
    unfold decodeModes
    cases ms with
    | nil => simp [encodeModes]; omega
    | cons m ms => simp; split <;> simp
  | succ n ih =>
    unfold decodeModes
    cases ms with
    | nil =>
      constructor
      · intro h
        split at h
        · cases h
        · split at h <;> cases h
      · rintro ⟨h, -⟩; simp at h
    | cons m ms =>
      have h3 := digit_le m
      simp only [List.length_cons, encodeModes, Nat.add_right_cancel_iff]
      cases hd : Mode.ofDigit (g % 10) with
      | none =>
        have := ofDigit_eq_none.mp hd
        simp only [reduceCtorEq, false_iff, not_and]
        omega
      | some m' =>
        have h1 := ofDigit_eq_some.mp hd
        have h2 := digit_le m'
        constructor
        · intro h
          cases hr : decodeModes n (g / 10) with
          | error r => simp [hr] at h
          | ok ms' =>
            simp only [hr, Except.ok.injEq, List.cons.injEq] at h
            obtain ⟨rfl, rfl⟩ := h
            have := ih.mp hr
            exact ⟨this.1, by omega⟩
        · rintro ⟨hl, h⟩
          have hm : m = m' := digit_injective (by omega)
          have hr : decodeModes n (g / 10) = .ok ms := ih.mpr ⟨hl, by omega⟩
          simp only [hr, hm]

/-- A mode group that does not decode is rejected with `invalidMode`. -/
theorem decodeModes_eq_error {n g : Nat} {r : Reject} (h : decodeModes n g = .error r) : r = .invalidMode := by
  induction n generalizing g r with
  | zero =>
    unfold decodeModes at h
    split at h <;> cases h
    rfl
  | succ n ih =>
    unfold decodeModes at h
    split at h
    · cases h; rfl
    · split at h
      · rename_i hr; cases h; exact ih hr
      · cases h

/-- A word decodes to an opcode and modes exactly when it is their numeral. -/
theorem decodeWord_eq_ok {w : Word} {op : Opcode} {ms : List Mode} :
    decodeWord w = .ok (op, ms) ↔
      0 ≤ w.toInt ∧ ms.length = op.nparams ∧ w.toNat = op.code + 100 * encodeModes ms := by
  have hc := code_lt op
  unfold decodeWord
  by_cases hn : w.toInt < 0
  · simp only [hn, if_true, reduceCtorEq, false_iff]; omega
  · simp only [hn, if_false]
    constructor
    · intro h
      cases ho : Opcode.ofCode (w.toNat % 100) with
      | none => simp [ho] at h
      | some op' =>
        have h1 := code_of_ofCode ho
        cases hd : decodeModes op'.nparams (w.toNat / 100) with
        | error r => simp [ho, hd] at h
        | ok ms' =>
          simp only [ho, hd, Except.ok.injEq, Prod.mk.injEq] at h
          obtain ⟨rfl, rfl⟩ := h
          have h2 := decodeModes_eq_ok.mp hd
          exact ⟨by omega, h2.1, by omega⟩
    · rintro ⟨-, hl, h⟩
      have ho : Opcode.ofCode (w.toNat % 100) = some op := by
        rw [← ofCode_code op]
        congr 1
        omega
      have hd : decodeModes op.nparams (w.toNat / 100) = .ok ms := decodeModes_eq_ok.mpr ⟨hl, by omega⟩
      simp only [ho, hd]

/-- A word with a defined opcode that does not decode is rejected with `invalidMode`. -/
theorem decodeWord_eq_error {w : Word} {r : Reject} {op : Opcode} (h : decodeWord w = .error r) (h0 : 0 ≤ w.toInt)
    (ho : op.code = w.toNat % 100) : r = .invalidMode := by
  unfold decodeWord at h
  rw [if_neg (by omega), ← ho, ofCode_code] at h
  cases hd : decodeModes op.nparams (w.toNat / 100) with
  | error r' =>
    simp only [hd, Except.error.injEq] at h
    rw [← h]
    exact decodeModes_eq_error hd
  | ok ms => simp [hd] at h

theorem encodeModes_lt (ms : List Mode) : encodeModes ms < 10 ^ ms.length := by
  induction ms with
  | nil => simp [encodeModes]
  | cons m ms ih =>
    have := digit_le m
    simp only [encodeModes, List.length_cons, Nat.pow_succ]
    omega

/-- Digit `i` of a mode group is the digit of mode `i`; above the modes it is 0. -/
theorem digit_of_encodeModes (ms : List Mode) (i : Nat) :
    encodeModes ms / 10 ^ i % 10 = (ms.map Mode.digit).getD i 0 := by
  induction ms generalizing i with
  | nil => simp [encodeModes]
  | cons m ms ih =>
    have := digit_le m
    cases i with
    | zero => simp [encodeModes]; omega
    | succ i =>
      rw [List.map_cons, List.getD_cons_succ, ← ih i, encodeModes, Nat.pow_succ, Nat.mul_comm (10 ^ i) 10,
        ← Nat.div_div_eq_div_mul]
      congr 2
      omega

end Sys2Proof
end

