-- ==== Sys2Proof/Laws/State.lean ====
section
/-! SUPPORT. One lemma for each field and each named update of the state, so that no proof unfolds an update. -/

namespace Sys2Proof.Machine

@[simp] theorem grow_pc (s : State) (a : Nat) : (s.grow a).pc = s.pc := rfl
@[simp] theorem grow_rb (s : State) (a : Nat) : (s.grow a).rb = s.rb := rfl
@[simp] theorem grow_st (s : State) (a : Nat) : (s.grow a).st = s.st := rfl
@[simp] theorem grow_fault (s : State) (a : Nat) : (s.grow a).fault = s.fault := rfl
@[simp] theorem grow_mem (s : State) (a : Nat) : (s.grow a).mem = s.mem := rfl
@[simp] theorem grow_mlen (s : State) (a : Nat) : (s.grow a).mlen = max s.mlen (a + 1) := rfl
@[simp] theorem grow_pending (s : State) (a : Nat) : (s.grow a).pending = s.pending := rfl
@[simp] theorem grow_replies (s : State) (a : Nat) : (s.grow a).replies = s.replies := rfl

@[simp] theorem takeFault_pc (c : Cause) (s : State) : (takeFault c s).pc = s.pc := rfl
@[simp] theorem takeFault_rb (c : Cause) (s : State) : (takeFault c s).rb = s.rb := rfl
@[simp] theorem takeFault_st (c : Cause) (s : State) : (takeFault c s).st = s.st := rfl
@[simp] theorem takeFault_fault (c : Cause) (s : State) : (takeFault c s).fault = some c := rfl
@[simp] theorem takeFault_mem (c : Cause) (s : State) : (takeFault c s).mem = s.mem := rfl
@[simp] theorem takeFault_mlen (c : Cause) (s : State) : (takeFault c s).mlen = s.mlen := rfl
@[simp] theorem takeFault_pending (c : Cause) (s : State) : (takeFault c s).pending = s.pending := rfl
@[simp] theorem takeFault_replies (c : Cause) (s : State) : (takeFault c s).replies = s.replies := rfl

@[simp] theorem construct_pc (im : List Int) (s : State) : (s.construct im).pc = 0 := rfl
@[simp] theorem construct_rb (im : List Int) (s : State) : (s.construct im).rb = 0 := rfl
@[simp] theorem construct_st (im : List Int) (s : State) : (s.construct im).st = .running := rfl
@[simp] theorem construct_fault (im : List Int) (s : State) : (s.construct im).fault = none := rfl
@[simp] theorem construct_mlen (im : List Int) (s : State) : (s.construct im).mlen = im.length := rfl
@[simp] theorem construct_pending (im : List Int) (s : State) : (s.construct im).pending = s.pending := rfl
@[simp] theorem construct_replies (im : List Int) (s : State) : (s.construct im).replies = s.replies := rfl
@[simp] theorem construct_mem (im : List Int) (s : State) :
    (s.construct im).mem = Memory.store [] 0 (im.map Word.ofInt) := rfl

end Sys2Proof.Machine
end

