-- ==== Sys2Proof/Laws/Memory.lean ====
section
/-! SUPPORT. The memory: what a read gives after a write, and that every operation keeps the canonical form. -/

namespace Sys2Proof.Machine

theorem wf_cons {a : Nat} {v : Word} {m : Memory} :
    Memory.wf ((a, v) :: m) = true ↔ (∀ c ∈ m, a < c.1) ∧ v ≠ 0 ∧ Memory.wf m = true := by
  simp [Memory.wf, and_assoc]

/-- An address below every listed one reads 0. -/
theorem read_of_lt {m : Memory} {a : Nat} (h : ∀ c ∈ m, a < c.1) : Memory.read m a = 0 := by
  induction m with
  | nil => rfl
  | cons c m ih =>
    have hc := h c (by simp)
    have hne : c.1 ≠ a := by omega
    simpa [Memory.read, hne] using ih fun d hd => h d (by simp [hd])

/-- An address that is not listed reads 0. -/
theorem read_of_not_mem {m : Memory} {a : Nat} (h : ∀ c ∈ m, c.1 ≠ a) : Memory.read m a = 0 := by
  induction m with
  | nil => rfl
  | cons c m ih =>
    have hne := h c (by simp)
    simpa [Memory.read, hne] using ih fun d hd => h d (by simp [hd])

theorem mem_erase {m : Memory} {a : Nat} {c : Nat × Word} : c ∈ m.erase a ↔ c ∈ m ∧ c.1 ≠ a := by
  simp [Memory.erase]

@[simp] theorem read_erase_same (m : Memory) (a : Nat) : (m.erase a).read a = 0 :=
  read_of_not_mem fun _ hc => (mem_erase.mp hc).2

theorem read_erase_ne (m : Memory) {a b : Nat} (h : b ≠ a) : (m.erase a).read b = m.read b := by
  induction m with
  | nil => rfl
  | cons c m ih =>
    by_cases hc : c.1 = a
    · have hb : c.1 ≠ b := by omega
      have he : Memory.erase (c :: m) a = Memory.erase m a := by simp [Memory.erase, hc]
      simp [he, ih, Memory.read, hb]
    · have he : Memory.erase (c :: m) a = c :: Memory.erase m a := by simp [Memory.erase, hc]
      simp [he, ih, Memory.read]

theorem mem_insert {m : Memory} {a : Nat} {v : Word} {c : Nat × Word} :
    c ∈ m.insert a v ↔ c = (a, v) ∨ c ∈ m := by
  induction m with
  | nil => simp [Memory.insert]
  | cons d m ih =>
    unfold Memory.insert
    split
    · simp
    · simp only [List.mem_cons, ih]; tauto

theorem read_insert_same {m : Memory} {a : Nat} {v : Word} (h : ∀ c ∈ m, c.1 ≠ a) :
    (m.insert a v).read a = v := by
  induction m with
  | nil => simp [Memory.insert, Memory.read]
  | cons d m ih =>
    have hd := h d (by simp)
    unfold Memory.insert
    split
    · simp [Memory.read]
    · simpa [Memory.read, hd] using ih fun c hc => h c (by simp [hc])

theorem read_insert_ne (m : Memory) {a b : Nat} (v : Word) (h : b ≠ a) : (m.insert a v).read b = m.read b := by
  induction m with
  | nil => simp [Memory.insert, Memory.read, Ne.symm h]
  | cons d m ih =>
    unfold Memory.insert
    split
    · simp [Memory.read, Ne.symm h]
    · simp [Memory.read, ih]

/-- A read after a write to the same address gives the value written (20_memory.md R57). -/
@[simp] theorem read_write_same (m : Memory) (a : Nat) (v : Word) : (m.write a v).read a = v := by
  unfold Memory.write
  split
  · simp [*]
  · exact read_insert_same fun _ hc => (mem_erase.mp hc).2

/-- A write leaves every other address alone. -/
theorem read_write_ne (m : Memory) {a b : Nat} (v : Word) (h : b ≠ a) : (m.write a v).read b = m.read b := by
  unfold Memory.write
  split
  · exact read_erase_ne m h
  · rw [read_insert_ne _ _ h, read_erase_ne m h]

theorem wf_erase {m : Memory} (a : Nat) (h : m.wf = true) : (m.erase a).wf = true := by
  induction m with
  | nil => rfl
  | cons c m ih =>
    obtain ⟨hlt, hv, hm⟩ := wf_cons.mp h
    by_cases hc : c.1 = a
    · have he : Memory.erase (c :: m) a = Memory.erase m a := by simp [Memory.erase, hc]
      rw [he]; exact ih hm
    · have he : Memory.erase (c :: m) a = c :: Memory.erase m a := by simp [Memory.erase, hc]
      rw [he]; exact wf_cons.mpr ⟨fun d hd => hlt d (mem_erase.mp hd).1, hv, ih hm⟩

theorem wf_insert {m : Memory} {a : Nat} {v : Word} (hv : v ≠ 0) (hna : ∀ c ∈ m, c.1 ≠ a) (h : m.wf = true) :
    (m.insert a v).wf = true := by
  induction m with
  | nil => exact wf_cons.mpr ⟨by simp, hv, rfl⟩
  | cons d m ih =>
    obtain ⟨hlt, hd, hm⟩ := wf_cons.mp h
    have hda : d.1 ≠ a := hna d (by simp)
    unfold Memory.insert
    split
    · rename_i hlt'
      refine wf_cons.mpr ⟨fun c hc => ?_, hv, h⟩
      rcases List.mem_cons.mp hc with rfl | hc
      · exact hlt'
      · exact Nat.lt_trans hlt' (hlt c hc)
    · rename_i hge
      refine wf_cons.mpr ⟨fun c hc => ?_, hd, ih (fun c hc => hna c (by simp [hc])) hm⟩
      rcases mem_insert.mp hc with rfl | hc
      · exact Nat.lt_of_le_of_ne (Nat.le_of_not_lt hge) hda
      · exact hlt c hc

/-- A write keeps the canonical form. -/
theorem wf_write {m : Memory} (a : Nat) (v : Word) (h : m.wf = true) : (m.write a v).wf = true := by
  unfold Memory.write
  split
  · exact wf_erase a h
  · rename_i hv
    exact wf_insert hv (fun _ hc => (mem_erase.mp hc).2) (wf_erase a h)

/-- The cells listed after a write are the old ones and the one written. -/
theorem mem_write {m : Memory} {a : Nat} {v : Word} {c : Nat × Word} (h : c ∈ m.write a v) : c.1 = a ∨ c ∈ m := by
  unfold Memory.write at h
  split at h
  · exact .inr (mem_erase.mp h).1
  · rcases mem_insert.mp h with rfl | h
    · exact .inl rfl
    · exact .inr (mem_erase.mp h).1

/-- Storing a sequence keeps the canonical form. -/
theorem wf_store {m : Memory} (a : Nat) (vs : List Word) (h : m.wf = true) : (m.store a vs).wf = true := by
  induction vs generalizing m a with
  | nil => exact h
  | cons v vs ih => exact ih (a + 1) (wf_write a v h)

/-- The cells listed after storing a sequence are the old ones and those of the sequence. -/
theorem mem_store {m : Memory} {a : Nat} {vs : List Word} {c : Nat × Word} (h : c ∈ m.store a vs) :
    (a ≤ c.1 ∧ c.1 < a + vs.length) ∨ c ∈ m := by
  induction vs generalizing m a with
  | nil => exact .inr h
  | cons v vs ih =>
    rcases ih h with ⟨h1, h2⟩ | h
    · left; simp only [List.length_cons]; omega
    · rcases mem_write h with h | h
      · left; simp only [List.length_cons]; omega
      · exact .inr h

/-- An address below the sequence reads as before. -/
theorem read_store_below (m : Memory) (vs : List Word) {a b : Nat} (h : b < a) : (m.store a vs).read b = m.read b := by
  induction vs generalizing m a with
  | nil => rfl
  | cons v vs ih => rw [Memory.store, ih _ (by omega), read_write_ne _ _ (by omega)]

/-- Storing a sequence into memory that reads 0 there makes each address read its word of the sequence. -/
theorem read_store (m : Memory) (vs : List Word) (a k : Nat) (h : ∀ b, a ≤ b → m.read b = 0) :
    (m.store a vs).read (a + k) = vs.getD k 0 := by
  induction vs generalizing m a k with
  | nil => simpa [Memory.store] using h (a + k) (by omega)
  | cons v vs ih =>
    have h' : ∀ b, a + 1 ≤ b → (m.write a v).read b = 0 := fun b hb => by
      rw [read_write_ne _ _ (by omega)]; exact h b (by omega)
    cases k with
    | zero => simp [Memory.store, read_store_below]
    | succ k =>
      have := ih (m.write a v) (a + 1) k h'
      rw [Memory.store, show a + (k + 1) = a + 1 + k by omega, this]
      rfl

end Sys2Proof.Machine
end

