-- ==== Sys2Proof/Laws/Ops.lean ====
section
/-! SUPPORT. One lemma for each shared operation, with everything it can do; proofs cite these instead of unfolding. -/

namespace Sys2Proof.Machine

@[simp] theorem ok_bind {α β : Type} (a : α) (f : α → Except Stop β) : (Except.ok a >>= f) = f a := rfl

@[simp] theorem error_bind {α β : Type} (e : Stop) (f : α → Except Stop β) :
    ((Except.error e : Except Stop α) >>= f) = .error e := rfl

@[simp] theorem commit_ok (s s' : State) : commit s (.ok s') = .next s' := rfl
@[simp] theorem commit_raise (s : State) (c : Cause) : commit s (.error (.raise c)) = .next (takeFault c s) := rfl
@[simp] theorem commit_stuck (s : State) (f : Fault) : commit s (.error (.stuck f)) = .fault f := rfl

/-- The check decides the range. -/
theorem fits_iff {v : Int} : fits v = true ↔ InWord v := by
  cases v with
  | ofNat n => exact decide_eq_true_iff.trans (by simp only [InWord, minInt, maxInt, maxAddr, Int.ofNat_eq_natCast]; omega)
  | negSucc n => exact decide_eq_true_iff.trans (by simp only [InWord, minInt, maxInt, maxAddr]; omega)

/-- A word is always in range. -/
theorem inWord_toInt (w : Word) : InWord w.toInt := by
  have h1 := BitVec.le_toInt w
  have h2 := BitVec.toInt_lt (x := w)
  simp only [InWord, minInt, maxInt]
  constructor <;> omega

/-- A word made of an integer in range is that integer. -/
theorem toInt_ofInt {v : Int} (h : InWord v) : (Word.ofInt v).toInt = v := by
  simp only [InWord, minInt, maxInt] at h
  simp only [Word.ofInt, BitVec.toInt_ofInt]
  rw [Int.bmod_eq_of_le] <;> omega

@[simp] theorem chk_of_inWord {v : Int} (h : InWord v) : chk v = .ok (Word.ofInt v) := by
  simp only [chk, if_pos (fits_iff.mpr h)]

@[simp] theorem chk_of_not_inWord {v : Int} (h : ¬ InWord v) : chk v = .error (.raise .arithmeticOverflow) := by
  simp only [chk, if_neg (mt fits_iff.mp h)]

/-- `chk` in the terms of claims. -/
theorem chk_eq (v : Int) :
    chk v = match rangeFault v with
      | some c => .error (.raise c)
      | none => .ok (Word.ofInt v) := by
  by_cases h : fits v = true <;> simp [chk, rangeFault, h]

/-- A read of an address without a limit gives its cell and grows the memory. -/
theorem memRead_nat (a : Nat) (s : State) : memRead none (a : Int) s = .ok (s.mem.read a, s.grow a) := by
  unfold memRead beyond
  rw [if_neg (by omega)]
  simp

/-- A write to an address without a limit writes its cell and grows the memory. -/
theorem memWrite_nat (a : Nat) (v : Word) (s : State) :
    memWrite none (a : Int) v s = .ok { s.grow a with mem := s.mem.write a v } := by
  unfold memWrite beyond
  rw [if_neg (by omega)]
  simp

/-- Reads of consecutive cells only grow the memory. -/
theorem touchCells_none (n a : Nat) (s : State) :
    touchCells none n a s = .ok { s with mlen := if n = 0 then s.mlen else max s.mlen (a + n) } := by
  induction n generalizing a s with
  | zero => rfl
  | succ n ih =>
    rw [touchCells, memRead_nat, ok_bind]
    simp only [ih, State.grow]
    congr 2
    by_cases hn : n = 0
    · subst hn; simp
    · simp only [hn, if_false, Nat.succ_ne_zero]; omega

/-- The fetch of an instruction: the successor's check, and growth past the instruction. -/
theorem fetchInstr_eq (n : Nat) (s : State) :
    fetchInstr none n s = match rangeFault (s.pc + n + 1) with
      | some c => .error (.raise c)
      | none => .ok { s with mlen := max s.mlen (s.pc + n + 1) } := by
  unfold fetchInstr
  rw [memRead_nat, ok_bind]
  simp only [chk_eq, grow_pc]
  cases rangeFault (s.pc + n + 1) with
  | some c => simp only [error_bind]
  | none =>
    simp only [ok_bind, touchCells_none, State.grow]
    congr 2
    by_cases hn : n = 0
    · subst hn; simp
    · simp only [hn, if_false]; omega

theorem rangeFault_nat {n : Nat} (h : n ≤ maxAddr) : rangeFault (n : Int) = none := by
  rw [rangeFault, if_pos]
  simpa [fits] using h

theorem addrFault_of_inWord {a : Int} (h : InWord a) :
    addrFault a = if a < 0 then some .invalidAddress else none := if_pos (fits_iff.mpr h)

theorem addrFault_of_not_inWord {a : Int} (h : ¬ InWord a) : addrFault a = some .arithmeticOverflow := if_neg (mt fits_iff.mp h)

/-- A read of an effective address in the terms of claims. -/
theorem memRead_int {a : Int} (h : InWord a) (s : State) :
    memRead none a s = match addrFault a with
      | some c => .error (.raise c)
      | none => .ok (s.mem.read a.toNat, s.grow a.toNat) := by
  rw [addrFault_of_inWord h, memRead]
  split <;> simp [beyond]

/-- A destination address in the terms of claims. -/
theorem destination_eq (a : Word) :
    destination a = match addrFault a.toInt with
      | some c => .error (.raise c)
      | none => .ok a.toInt.toNat := by
  rw [addrFault_of_inWord (inWord_toInt a), destination]
  split <;> rfl

/-- `RdParam` in the terms of claims. -/
theorem rdParam_eq (p : Param) (s : State) :
    rdParam none p s = match readFault s.rb p with
      | some c => .error (.raise c)
      | none => .ok (readValue s p, { s with mlen := max s.mlen (readReach s.rb p) }) := by
  obtain ⟨mode, lit⟩ := p
  cases mode with
  | immediate => simp [rdParam, readFault, readValue, readReach]
  | position => exact memRead_int (inWord_toInt lit) s
  | relative =>
    simp only [rdParam, readFault, readValue, readReach, relativeAddr]
    by_cases h : InWord (s.rb.toInt + lit.toInt)
    · rw [chk_of_inWord h, ok_bind, toInt_ofInt h]
      exact memRead_int h s
    · rw [chk_of_not_inWord h, addrFault_of_not_inWord h]
      rfl

/-- `WrParam` in the terms of claims. -/
theorem wrParam_eq (p : Param) (s : State) :
    wrParam p s = match writeFault s.rb p with
      | some c => .error (.raise c)
      | none => .ok (destAddr s.rb p) := by
  obtain ⟨mode, lit⟩ := p
  cases mode with
  | immediate => rfl
  | position => exact destination_eq lit
  | relative =>
    simp only [wrParam, writeFault, destAddr, effAddr, relativeAddr]
    by_cases h : InWord (s.rb.toInt + lit.toInt)
    · rw [chk_of_inWord h, ok_bind, destination_eq, toInt_ofInt h]
    · rw [chk_of_not_inWord h, addrFault_of_not_inWord h]
      rfl

theorem addrFault_eq_none {a : Int} : addrFault a = none ↔ 0 ≤ a ∧ a ≤ maxInt := by
  by_cases h : InWord a
  · rw [addrFault_of_inWord h]
    have := h.2
    split <;> simp <;> omega
  · rw [addrFault_of_not_inWord h]
    simp only [InWord, minInt, maxInt, reduceCtorEq, false_iff] at *
    omega

/-- A parameter can be read exactly when resolving it raises nothing. -/
theorem readFault_eq_none {rb : Word} {p : Param} : readFault rb p = none ↔ Readable rb p := by
  obtain ⟨mode, lit⟩ := p
  cases mode with
  | immediate => simp [readFault, Readable]
  | position => simpa [readFault, Readable, addrFault_eq_none] using fun _ => (inWord_toInt lit).2
  | relative => exact addrFault_eq_none

/-- A parameter can be a destination exactly when resolving it raises nothing. -/
theorem writeFault_eq_none {rb : Word} {p : Param} : writeFault rb p = none ↔ Writable rb p := by
  obtain ⟨mode, lit⟩ := p
  cases mode with
  | immediate => simp [writeFault, Writable]
  | position => exact readFault_eq_none (rb := rb) (p := ⟨.position, lit⟩)
  | relative => exact readFault_eq_none (rb := rb) (p := ⟨.relative, lit⟩)

/-- A destination is an address. -/
theorem destAddr_le {rb : Word} {p : Param} (h : Writable rb p) : destAddr rb p ≤ maxAddr := by
  obtain ⟨mode, lit⟩ := p
  have hl := inWord_toInt lit
  simp only [InWord, minInt, maxInt] at hl
  cases mode <;> simp only [Writable, destAddr, effAddr, maxInt, maxAddr] at * <;> omega

/-- A read reaches at most the end of the address space. -/
theorem readReach_le {rb : Word} {p : Param} (h : Readable rb p) : readReach rb p ≤ maxAddr + 1 := by
  obtain ⟨mode, lit⟩ := p
  have hl := inWord_toInt lit
  simp only [InWord, minInt, maxInt] at hl
  cases mode <;> simp only [Readable, readReach, maxInt, maxAddr] at * <;> omega

/-- What a word reads does not depend on how far the memory has grown. -/
@[simp] theorem readValue_mlen (s : State) (n : Nat) (p : Param) : readValue { s with mlen := n } p = readValue s p := rfl

/-- The shape of ADD, MUL, LT, EQ: it takes a fault, or it writes one cell and goes on. -/
theorem aluOp_eq (f : Int → Int → Except Stop Word) (p1 p2 p3 : Param) (s : State) :
    aluOp none f p1 p2 p3 s =
      match firstFault [rangeFault (s.pc + 4), readFault s.rb p1, readFault s.rb p2, writeFault s.rb p3] with
      | some c => .next (takeFault c s)
      | none =>
        match f (readValue s p1).toInt (readValue s p2).toInt with
        | .error e => commit s (.error e)
        | .ok r => .next { s with
            pc := s.pc + 4
            mem := s.mem.write (destAddr s.rb p3) r
            mlen := max (max (max (max s.mlen (s.pc + 4)) (readReach s.rb p1)) (readReach s.rb p2))
              (destAddr s.rb p3 + 1) } := by
  unfold aluOp
  rw [fetchInstr_eq, show ((s.pc : Int) + (3 : Nat) + 1) = s.pc + 4 by omega]
  cases h0 : rangeFault (s.pc + 4) with
  | some c => simp [firstFault]
  | none =>
    simp only [ok_bind, rdParam_eq]
    cases h1 : readFault s.rb p1 with
    | some c => simp [firstFault]
    | none =>
      simp only [ok_bind, readValue_mlen]
      cases h2 : readFault s.rb p2 with
      | some c => simp [firstFault]
      | none =>
        simp only [ok_bind, wrParam_eq]
        cases h3 : writeFault s.rb p3 with
        | some c => simp [firstFault]
        | none =>
          simp only [ok_bind, firstFault]
          cases f (readValue s p1).toInt (readValue s p2).toInt with
          | error e => simp
          | ok r => simp [memWrite_nat, State.grow, Nat.add_assoc]

/-- The shape of JT and JF: it takes a fault, jumps, or falls through; no cell changes. -/
theorem jumpOp_eq (taken : Word → Bool) (p1 p2 : Param) (s : State) :
    jumpOp none taken p1 p2 s =
      match firstFault [rangeFault (s.pc + 3), readFault s.rb p1, readFault s.rb p2] with
      | some c => .next (takeFault c s)
      | none =>
        if taken (readValue s p1) = true ∧ (readValue s p2).toInt < 0 then .next (takeFault .invalidAddress s)
        else .next { s with
          pc := if taken (readValue s p1) = true then (readValue s p2).toInt.toNat else s.pc + 3
          mlen := max (max (max s.mlen (s.pc + 3)) (readReach s.rb p1)) (readReach s.rb p2) } := by
  unfold jumpOp
  rw [fetchInstr_eq, show ((s.pc : Int) + (2 : Nat) + 1) = s.pc + 3 by omega]
  cases h0 : rangeFault (s.pc + 3) with
  | some c => simp [firstFault]
  | none =>
    simp only [ok_bind, rdParam_eq]
    cases h1 : readFault s.rb p1 with
    | some c => simp [firstFault]
    | none =>
      simp only [ok_bind, readValue_mlen]
      cases h2 : readFault s.rb p2 with
      | some c => simp [firstFault]
      | none =>
        simp only [ok_bind, firstFault]
        cases ht : taken (readValue s p1) with
        | false => simp [Nat.add_assoc]
        | true =>
          by_cases hn : (readValue s p2).toInt < 0
          · simp [hn]
          · simp [hn, Nat.add_assoc]

/-! The meanings at the spec's limit are the shapes without one. -/

theorem execAdd_eq (p1 p2 p3 : Param) (s : State) : execAdd p1 p2 p3 s = aluOp none (fun a b => chk (a + b)) p1 p2 p3 s := rfl
theorem execMul_eq (p1 p2 p3 : Param) (s : State) : execMul p1 p2 p3 s = aluOp none (fun a b => chk (a * b)) p1 p2 p3 s := rfl
theorem execLt_eq (p1 p2 p3 : Param) (s : State) :
    execLt p1 p2 p3 s = aluOp none (fun a b => .ok (truthWord (decide (a < b)))) p1 p2 p3 s := rfl
theorem execEq_eq (p1 p2 p3 : Param) (s : State) :
    execEq p1 p2 p3 s = aluOp none (fun a b => .ok (truthWord (decide (a = b)))) p1 p2 p3 s := rfl
theorem execJt_eq (p1 p2 : Param) (s : State) : execJt p1 p2 s = jumpOp none (fun c => condTrue c) p1 p2 s := rfl
theorem execJf_eq (p1 p2 : Param) (s : State) : execJf p1 p2 s = jumpOp none (fun c => !condTrue c) p1 p2 s := rfl

end Sys2Proof.Machine
end

