-- ==== Sys2Proof/Laws/Exec.lean ====
section
/-! SUPPORT. What each meaning that is not an ALU or jump shape does, in the terms of claims, and the ways one instruction can end. -/

namespace Sys2Proof.Machine

/-- No check of an ALU instruction fails. -/
theorem aluChecks_none {s : State} {p1 p2 p3 : Param} (h0 : s.pc + 4 ≤ maxAddr) (h1 : Readable s.rb p1)
    (h2 : Readable s.rb p2) (h3 : Writable s.rb p3) :
    firstFault [rangeFault (s.pc + 4), readFault s.rb p1, readFault s.rb p2, writeFault s.rb p3] = none := by
  have h : rangeFault ((s.pc : Int) + 4) = none := rangeFault_nat h0
  rw [h, readFault_eq_none.mpr h1, readFault_eq_none.mpr h2, writeFault_eq_none.mpr h3]
  rfl

/-- No check of a jump fails. -/
theorem jumpChecks_none {s : State} {p1 p2 : Param} (h0 : s.pc + 3 ≤ maxAddr) (h1 : Readable s.rb p1)
    (h2 : Readable s.rb p2) : firstFault [rangeFault (s.pc + 3), readFault s.rb p1, readFault s.rb p2] = none := by
  have h : rangeFault ((s.pc : Int) + 3) = none := rangeFault_nat h0
  rw [h, readFault_eq_none.mpr h1, readFault_eq_none.mpr h2]
  rfl

/-- Every check of a list passes exactly when none reports a cause. -/
theorem firstFault_eq_none {l : List (Option Cause)} : firstFault l = none ↔ ∀ o ∈ l, o = none := by
  induction l with
  | nil => simp [firstFault]
  | cons o l ih => cases o <;> simp [firstFault, ih]

theorem rangeFault_eq_none {v : Int} : rangeFault v = none ↔ InWord v := by
  rw [← fits_iff, rangeFault]
  split <;> simp [*]

/-- The successor of an address is an address exactly when its check passes. -/
theorem succ_of_rangeFault {n k : Nat} (h : rangeFault ((n : Int) + k) = none) : n + k ≤ maxAddr := by
  have := (rangeFault_eq_none.mp h).2
  simp only [maxInt, maxAddr] at *
  omega

theorem execArb_eq (p : Param) (s : State) :
    execArb p s = match firstFault [rangeFault (s.pc + 2), readFault s.rb p, rangeFault (s.rb.toInt + (readValue s p).toInt)] with
      | some c => .next (takeFault c s)
      | none => .next { s with
          pc := s.pc + 2
          rb := Word.ofInt (s.rb.toInt + (readValue s p).toInt)
          mlen := max (max s.mlen (s.pc + 2)) (readReach s.rb p) } := by
  unfold execArb arbWith Config.memLimit
  rw [fetchInstr_eq, show ((s.pc : Int) + (1 : Nat) + 1) = s.pc + 2 by omega]
  cases h0 : rangeFault (s.pc + 2) with
  | some c => simp [firstFault]
  | none =>
    simp only [ok_bind, rdParam_eq]
    cases h1 : readFault s.rb p with
    | some c => simp [firstFault]
    | none =>
      simp only [ok_bind, readValue_mlen, chk_eq]
      cases rangeFault (s.rb.toInt + (readValue s p).toInt) <;> simp [firstFault, Nat.add_assoc]

theorem execOut_eq (p : Param) (s : State) :
    execOut p s = match firstFault [rangeFault (s.pc + 2), readFault s.rb p] with
      | some c => .next (takeFault c s)
      | none => .next { s with
          pc := s.pc + 2
          st := .hasOutput (readValue s p)
          mlen := max (max s.mlen (s.pc + 2)) (readReach s.rb p) } := by
  unfold execOut outWith Config.memLimit
  rw [fetchInstr_eq, show ((s.pc : Int) + (1 : Nat) + 1) = s.pc + 2 by omega]
  cases h0 : rangeFault (s.pc + 2) with
  | some c => simp [firstFault]
  | none =>
    simp only [ok_bind, rdParam_eq]
    cases h1 : readFault s.rb p <;> simp [firstFault, Nat.add_assoc]

theorem execInp_eq (p : Param) (s : State) :
    execInp p s = match firstFault [rangeFault (s.pc + 2), writeFault s.rb p] with
      | some c => .next (takeFault c s)
      | none => .next { s with
          pc := s.pc + 2
          st := .awaitingInput (destAddr s.rb p)
          mlen := max s.mlen (s.pc + 2) } := by
  unfold execInp inpWith Config.memLimit
  rw [fetchInstr_eq, show ((s.pc : Int) + (1 : Nat) + 1) = s.pc + 2 by omega]
  cases h0 : rangeFault (s.pc + 2) with
  | some c => simp [firstFault]
  | none =>
    simp only [ok_bind, wrParam_eq]
    cases h1 : writeFault s.rb p <;> simp [firstFault, Nat.add_assoc]

theorem execHlt_eq (s : State) :
    execHlt s = match rangeFault (s.pc + 1) with
      | some c => .next (takeFault c s)
      | none => .next { s with pc := s.pc + 1, st := .terminated, mlen := max s.mlen (s.pc + 1) } := by
  unfold execHlt hltWith Config.memLimit
  rw [fetchInstr_eq, show ((s.pc : Int) + (0 : Nat) + 1) = s.pc + 1 by omega]
  cases h0 : rangeFault (s.pc + 1) <;> simp

/-- How an instruction that completes leaves the state: by its kind, the only fields it may change and to what. -/
inductive Effect (i : Instr) (s : State) : State → Prop where
  | store (hi : Stores i) (p : Param) (hp : i.writeParam = some p) (hd : Writable s.rb p) (r : Word) (n : Nat)
      (hpc : s.pc + 4 ≤ maxAddr) (hn : max s.mlen (destAddr s.rb p + 1) ≤ n) (hn' : n ≤ max s.mlen (maxAddr + 1)) :
      Effect i s { s with pc := s.pc + 4, mem := s.mem.write (destAddr s.rb p) r, mlen := n }
  | jump (hi : (∃ p1 p2, i = .jt p1 p2) ∨ ∃ p1 p2, i = .jf p1 p2) (pc n : Nat) (hpc : pc ≤ maxAddr) (hn : s.mlen ≤ n)
      (hn' : n ≤ max s.mlen (maxAddr + 1)) : Effect i s { s with pc := pc, mlen := n }
  | arb (p : Param) (hi : i = .arb p) (r : Word) (n : Nat) (hpc : s.pc + 2 ≤ maxAddr) (hn : s.mlen ≤ n)
      (hn' : n ≤ max s.mlen (maxAddr + 1)) : Effect i s { s with pc := s.pc + 2, rb := r, mlen := n }
  | inp (p : Param) (hi : i = .inp p) (hd : Writable s.rb p) (n : Nat) (hpc : s.pc + 2 ≤ maxAddr) (hn : s.mlen ≤ n)
      (hn' : n ≤ max s.mlen (maxAddr + 1)) :
      Effect i s { s with pc := s.pc + 2, st := .awaitingInput (destAddr s.rb p), mlen := n }
  | out (p : Param) (hi : i = .out p) (v : Word) (n : Nat) (hpc : s.pc + 2 ≤ maxAddr) (hn : s.mlen ≤ n)
      (hn' : n ≤ max s.mlen (maxAddr + 1)) : Effect i s { s with pc := s.pc + 2, st := .hasOutput v, mlen := n }
  | hlt (hi : i = .hlt) (n : Nat) (hpc : s.pc + 1 ≤ maxAddr) (hn : s.mlen ≤ n) (hn' : n ≤ max s.mlen (maxAddr + 1)) :
      Effect i s { s with pc := s.pc + 1, st := .terminated, mlen := n }

/-- The four storing instructions take a fault or store. -/
theorem aluOp_cases {i : Instr} (hi : Stores i) {p1 p2 p3 : Param} (hp : i.writeParam = some p3)
    {f : Int → Int → Except Stop Word} (hf : ∀ a b e, f a b = .error e → ∃ c, e = .raise c) (s : State) :
    (∃ c, aluOp none f p1 p2 p3 s = .next (takeFault c s)) ∨ ∃ t, aluOp none f p1 p2 p3 s = .next t ∧ Effect i s t := by
  rw [aluOp_eq]
  cases hff : firstFault [rangeFault (s.pc + 4), readFault s.rb p1, readFault s.rb p2, writeFault s.rb p3] with
  | some c => exact .inl ⟨c, rfl⟩
  | none =>
    simp only [firstFault_eq_none, List.mem_cons, List.not_mem_nil, or_false, forall_eq_or_imp, forall_eq] at hff
    obtain ⟨h0, h1, h2, h3⟩ := hff
    have hpc : s.pc + 4 ≤ maxAddr := succ_of_rangeFault (k := 4) h0
    have hr1 := readReach_le (readFault_eq_none.mp h1)
    have hr2 := readReach_le (readFault_eq_none.mp h2)
    have hw := writeFault_eq_none.mp h3
    have hd := destAddr_le hw
    cases hr : f (readValue s p1).toInt (readValue s p2).toInt with
    | error e =>
      obtain ⟨c, rfl⟩ := hf _ _ _ hr
      exact .inl ⟨c, rfl⟩
    | ok r => exact .inr ⟨_, rfl, .store hi p3 hp hw r _ hpc (by omega) (by omega)⟩

/-- The two jumps take a fault or set `pc`. -/
theorem jumpOp_cases {i : Instr} (hi : (∃ p1 p2, i = .jt p1 p2) ∨ ∃ p1 p2, i = .jf p1 p2) (taken : Word → Bool)
    (p1 p2 : Param) (s : State) :
    (∃ c, jumpOp none taken p1 p2 s = .next (takeFault c s)) ∨ ∃ t, jumpOp none taken p1 p2 s = .next t ∧ Effect i s t := by
  rw [jumpOp_eq]
  cases hff : firstFault [rangeFault (s.pc + 3), readFault s.rb p1, readFault s.rb p2] with
  | some c => exact .inl ⟨c, rfl⟩
  | none =>
    simp only [firstFault_eq_none, List.mem_cons, List.not_mem_nil, or_false, forall_eq_or_imp, forall_eq] at hff
    obtain ⟨h0, h1, h2⟩ := hff
    have hpc : s.pc + 3 ≤ maxAddr := succ_of_rangeFault (k := 3) h0
    have hr1 := readReach_le (readFault_eq_none.mp h1)
    have hr2 := readReach_le (readFault_eq_none.mp h2)
    have ht := (inWord_toInt (readValue s p2)).2
    simp only [maxInt, maxAddr] at *
    by_cases hn : taken (readValue s p1) = true ∧ (readValue s p2).toInt < 0
    · simp only [if_pos hn]; exact .inl ⟨_, rfl⟩
    · simp only [if_neg hn]
      refine .inr ⟨_, rfl, .jump hi _ _ ?_ (by omega) (by simp only [maxAddr]; omega)⟩
      simp only [maxAddr]
      split <;> omega

/-- What an instruction can do: it takes a fault, or it has its effect. No instruction stops the model. -/
theorem exec_cases (i : Instr) (s : State) :
    (∃ c, exec i s = .next (takeFault c s)) ∨ ∃ t, exec i s = .next t ∧ Effect i s t := by
  have hchk : ∀ (g : Int → Int → Int) a b e, chk (g a b) = .error e → ∃ c, e = .raise c := by
    intro g a b e h
    rw [chk_eq] at h
    split at h
    · exact ⟨_, (Except.error.inj h).symm⟩
    · cases h
  have hok : ∀ (g : Int → Int → Word) a b e, (Except.ok (g a b) : Except Stop Word) = .error e → ∃ c, e = .raise c := by
    intro g a b e h
    cases h
  cases i with
  | add p1 p2 p3 => exact aluOp_cases (by trivial) rfl (hchk (· + ·)) s
  | mul p1 p2 p3 => exact aluOp_cases (by trivial) rfl (hchk (· * ·)) s
  | lt p1 p2 p3 => exact aluOp_cases (by trivial) rfl (hok fun a b => truthWord (decide (a < b))) s
  | eq p1 p2 p3 => exact aluOp_cases (by trivial) rfl (hok fun a b => truthWord (decide (a = b))) s
  | jt p1 p2 => exact jumpOp_cases (.inl ⟨p1, p2, rfl⟩) _ p1 p2 s
  | jf p1 p2 => exact jumpOp_cases (.inr ⟨p1, p2, rfl⟩) (fun c => !condTrue c) p1 p2 s
  | arb p =>
    simp only [exec, execArb_eq]
    cases hff : firstFault [rangeFault (s.pc + 2), readFault s.rb p, rangeFault (s.rb.toInt + (readValue s p).toInt)] with
    | some c => exact .inl ⟨c, rfl⟩
    | none =>
      simp only [firstFault_eq_none, List.mem_cons, List.not_mem_nil, or_false, forall_eq_or_imp, forall_eq] at hff
      have hpc : s.pc + 2 ≤ maxAddr := succ_of_rangeFault (k := 2) hff.1
      have hr := readReach_le (readFault_eq_none.mp hff.2.1)
      exact .inr ⟨_, rfl, .arb p rfl _ _ hpc (by omega) (by omega)⟩
  | out p =>
    simp only [exec, execOut_eq]
    cases hff : firstFault [rangeFault (s.pc + 2), readFault s.rb p] with
    | some c => exact .inl ⟨c, rfl⟩
    | none =>
      simp only [firstFault_eq_none, List.mem_cons, List.not_mem_nil, or_false, forall_eq_or_imp, forall_eq] at hff
      have hpc : s.pc + 2 ≤ maxAddr := succ_of_rangeFault (k := 2) hff.1
      have hr := readReach_le (readFault_eq_none.mp hff.2)
      exact .inr ⟨_, rfl, .out p rfl _ _ hpc (by omega) (by omega)⟩
  | inp p =>
    simp only [exec, execInp_eq]
    cases hff : firstFault [rangeFault (s.pc + 2), writeFault s.rb p] with
    | some c => exact .inl ⟨c, rfl⟩
    | none =>
      simp only [firstFault_eq_none, List.mem_cons, List.not_mem_nil, or_false, forall_eq_or_imp, forall_eq] at hff
      have hpc : s.pc + 2 ≤ maxAddr := succ_of_rangeFault (k := 2) hff.1
      exact .inr ⟨_, rfl, .inp p rfl (writeFault_eq_none.mp hff.2) _ hpc (by omega) (by omega)⟩
  | hlt =>
    simp only [exec, execHlt_eq]
    cases hff : rangeFault (s.pc + 1) with
    | some c => exact .inl ⟨c, rfl⟩
    | none =>
      have hpc : s.pc + 1 ≤ maxAddr := succ_of_rangeFault (k := 1) hff
      exact .inr ⟨_, rfl, .hlt rfl _ hpc (by omega) (by omega)⟩

end Sys2Proof.Machine
end

