-- ==== Sys2Proof/Laws/Step.lean ====
section
/-! SUPPORT. What a cycle of the instance, a transaction of the host and a step of the model can do, each said once. -/

namespace Sys2Proof.Machine

theorem canStep_iff {s : State} : s.canStep = true ↔ s.fault = none ∧ s.st = .running := by
  simp [State.canStep]

/-- The cycle of the spec's build, without its limit. -/
theorem cycle_eq (s : State) :
    cycle s = if s.canStep then
        match decode (fetchCells s) with
        | .error r => .next (takeFault (rejectCause r) s)
        | .ok i => exec i s
      else .next s := by
  cases h : s.canStep <;> cases hd : decode (fetchCells s) <;>
    simp only [cycle, cycleOn, Build.spec, Config.memLimit, memRead_nat, h, hd, if_true, Bool.false_eq_true, if_false]

/-! Each transaction of the spec's build, without its limit. -/

theorem transact_construct (im : List Int) (s : State) :
    transact (.construct im) s = if isImage im then .next (s.construct im, .ok) else .next (s, .refused) := rfl

theorem transact_step (s : State) :
    transact .step s = if s.canStep then
        match cycle s with
        | .next t =>
          match t.fault with
          | none => .next (t, .ok)
          | some c => .next (t, .cause c)
        | .fault f => .fault f
        | .refused r => .refused r
      else .next (s, notAdmitted s) := rfl

theorem transact_resume (x : Int) (s : State) :
    transact (.resumeWithInput x) s =
      match s.fault, s.st with
      | none, .awaitingInput d =>
        if fits x then .next ({ s.grow d with mem := s.mem.write d (Word.ofInt x), st := .running }, .ok)
        else .next (s, .refused)
      | _, _ => .next (s, notAdmitted s) := by
  cases hf : s.fault <;> cases hs : s.st <;>
    simp only [transact, transactOn, Build.spec, Config.memLimit, memWrite_nat, hf, hs]

theorem transact_acknowledge (s : State) :
    transact .acknowledgeOutput s =
      match s.fault, s.st with
      | none, .hasOutput _ => .next ({ s with st := .running }, .ok)
      | _, _ => .next (s, notAdmitted s) := rfl

theorem transact_inspect (s : State) : transact .inspect s = .next (s, .view s.view) := rfl

/-- A cycle stutters where a step is not admitted; else it takes a fault or runs the decoded instruction. -/
theorem cycle_cases (s : State) :
    (s.canStep = false ∧ cycle s = .next s) ∨
      (s.canStep = true ∧ ((∃ c, cycle s = .next (takeFault c s)) ∨
        ∃ i, decode (fetchCells s) = .ok i ∧ cycle s = exec i s)) := by
  rw [cycle_eq]
  cases h : s.canStep with
  | false => simp
  | true =>
    simp only [if_true]
    refine .inr ⟨trivial, ?_⟩
    cases decode (fetchCells s) with
    | error r => exact .inl ⟨_, rfl⟩
    | ok i => exact .inr ⟨i, rfl, rfl⟩

/-- The cycle of an instance that can step, where its cells decode. -/
theorem cycle_of_decode {s : State} {i : Instr} (h : s.canStep = true) (hd : decode (fetchCells s) = .ok i) :
    cycle s = exec i s := by
  simp only [cycle_eq, h, if_true, hd]

/-- The cycle of an instance that can step, where its cells do not decode. -/
theorem cycle_of_reject {s : State} {r : Reject} (h : s.canStep = true) (hd : decode (fetchCells s) = .error r) :
    cycle s = .next (takeFault (rejectCause r) s) := by
  simp only [cycle_eq, h, if_true, hd]

theorem isImage_iff {im : List Int} : isImage im = true ↔ im.length ≤ maxAddr + 1 ∧ ∀ v ∈ im, InWord v := by
  simp [isImage, fits_iff]

/-- What a transaction does to an instance and returns: nothing, or its own effect where it is admitted. -/
inductive TransactEffect (s : State) : Transaction → State → Reply → Prop where
  | nothing (t : Transaction) (r : Reply) (hr : ∀ c, r = .cause c → s.fault = some c) : TransactEffect s t s r
  | construct (im : List Int) (hl : im.length ≤ maxAddr + 1) (hw : ∀ v ∈ im, InWord v) :
      TransactEffect s (.construct im) (s.construct im) .ok
  | stepOk (t : State) (hc : s.canStep = true) (h : cycle s = .next t) (hf : t.fault = none) : TransactEffect s .step t .ok
  | stepRaise (t : State) (c : Cause) (hc : s.canStep = true) (h : cycle s = .next t) (hf : t.fault = some c) :
      TransactEffect s .step t (.cause c)
  | resume (x : Int) (d : Nat) (hf : s.fault = none) (hs : s.st = .awaitingInput d) (hx : InWord x) :
      TransactEffect s (.resumeWithInput x)
        { s.grow d with mem := s.mem.write d (Word.ofInt x), st := .running } .ok
  | acknowledge (v : Word) (hf : s.fault = none) (hs : s.st = .hasOutput v) :
      TransactEffect s .acknowledgeOutput { s with st := .running } .ok

theorem notAdmitted_cause {s : State} {c : Cause} (h : notAdmitted s = .cause c) : s.fault = some c := by
  unfold notAdmitted at h
  split at h
  · cases h; assumption
  · cases h

theorem transact_cases (tr : Transaction) (s : State) :
    ∃ t r, transact tr s = .next (t, r) ∧ TransactEffect s tr t r := by
  cases tr with
  | construct im =>
    rw [transact_construct]
    by_cases hi : isImage im = true
    · simp only [hi, if_true]
      exact ⟨_, _, rfl, .construct im (isImage_iff.mp hi).1 (isImage_iff.mp hi).2⟩
    · simp only [hi]
      exact ⟨_, _, rfl, .nothing _ _ (by simp)⟩
  | step =>
    rw [transact_step]
    by_cases hi : s.canStep = true
    · have hn : ∃ t, cycle s = .next t := by
        rcases cycle_cases s with ⟨-, hc⟩ | ⟨-, ⟨c, hc⟩ | ⟨i, -, hc⟩⟩
        · exact ⟨_, hc⟩
        · exact ⟨_, hc⟩
        · rcases exec_cases i s with ⟨c, he⟩ | ⟨t, he, -⟩
          · exact ⟨_, hc.trans he⟩
          · exact ⟨_, hc.trans he⟩
      obtain ⟨t, ht⟩ := hn
      simp only [hi, if_true, ht]
      cases hf : t.fault with
      | none => exact ⟨t, _, rfl, .stepOk t hi ht hf⟩
      | some c => exact ⟨t, _, rfl, .stepRaise t c hi ht hf⟩
    · simp only [hi]
      exact ⟨_, _, rfl, .nothing _ _ fun _ => notAdmitted_cause⟩
  | resumeWithInput x =>
    rw [transact_resume]
    split
    · rename_i d hf hst
      split
      · rename_i hx
        exact ⟨_, _, rfl, .resume x d hf hst (fits_iff.mp hx)⟩
      · exact ⟨_, _, rfl, .nothing _ _ (by simp)⟩
    · exact ⟨_, _, rfl, .nothing _ _ fun _ => notAdmitted_cause⟩
  | acknowledgeOutput =>
    rw [transact_acknowledge]
    split
    · rename_i v hf hst
      exact ⟨_, _, rfl, .acknowledge v hf hst⟩
    · exact ⟨_, _, rfl, .nothing _ _ fun _ => notAdmitted_cause⟩
  | inspect => exact ⟨_, _, rfl, .nothing _ _ (by simp)⟩

theorem issue_of_transact {t : Transaction} {s s' : State} {r : Reply} (h : transact t s = .next (s', r)) :
    issue t s = .next { s' with replies := s'.replies ++ [r] } := by
  simp only [issue, issueOn, show transactOn Build.spec t s = _ from h]

/-- The step of the spec's build. -/
theorem step_eq (s : State) :
    step s = match s.pending with
      | [] => cycle s
      | t :: ts => if t.admitted s || !s.canStep then issue t { s with pending := ts } else cycle s := rfl

/-- A step is the instance's cycle or the host's next transaction. -/
theorem step_cases (s : State) :
    ((s.pending = [] ∨ ∃ t ts, s.pending = t :: ts ∧ t.admitted s = false ∧ s.canStep = true) ∧ step s = cycle s) ∨
      ∃ t ts, s.pending = t :: ts ∧ (t.admitted s = true ∨ s.canStep = false) ∧
        step s = issue t { s with pending := ts } := by
  rw [step_eq]
  cases hp : s.pending with
  | nil => simp
  | cons t ts => cases ha : t.admitted s <;> cases hc : s.canStep <;> simp [ha]

end Sys2Proof.Machine
end

