-- ==== Sys2Proof/Laws/Limit.lean ====
section
/-! SUPPORT. What a finite memory limit changes (20_memory.md R62), said once of each operation that takes the limit. -/

namespace Sys2Proof.Machine

/-- `r`, with the limit `l`, against `r'`, without one, from a memory of length `m`; `len` is the length a result leaves. The limited
operation is stuck or does the same; lengths only grow; what stays within the limit is not stuck; nothing grows past the limit. -/
structure Within {α : Type} (l m : Nat) (len : α → Nat) (r r' : Except Stop α) : Prop where
  agrees : r = .error (.stuck .beyondMemLimit) ∨ r = r'
  grows : ∀ a, r' = .ok a → m ≤ len a
  fits : ∀ a, r' = .ok a → len a ≤ l → r = r'
  bounded : ∀ a, r = .ok a → m ≤ l → len a ≤ l

/-- An operation that has no limit and leaves the length. -/
theorem within_refl {α : Type} (l m : Nat) (r : Except Stop α) : Within l m (fun _ => m) r r where
  agrees := .inr rfl
  grows := fun _ _ => le_refl _
  fits := fun _ _ _ => rfl
  bounded := fun _ _ h => h

/-- A result that leaves the length. -/
theorem within_ok {l : Nat} (s t : State) (h : t.mlen = s.mlen) : Within l s.mlen State.mlen (.ok t) (.ok t) where
  agrees := .inr rfl
  grows := fun _ ha => by cases ha; exact h.ge
  fits := fun _ _ _ => rfl
  bounded := fun _ ha hm => by cases ha; exact h.le.trans hm

theorem within_error {α : Type} {l m : Nat} {len : α → Nat} (e : Stop) : Within l m len (.error e) (.error e) where
  agrees := .inr rfl
  grows := fun _ h => by cases h
  fits := fun _ _ _ => rfl
  bounded := fun _ h => by cases h

theorem within_bind {α β : Type} {l m : Nat} {len : α → Nat} {len' : β → Nat} {r r' : Except Stop α}
    {f f' : α → Except Stop β} (h : Within l m len r r') (hf : ∀ a, Within l (len a) len' (f a) (f' a)) :
    Within l m len' (r >>= f) (r' >>= f') where
  agrees := by
    rcases h.agrees with hs | rfl
    · exact .inl (by rw [hs, error_bind])
    · cases r with
      | error e => exact .inr rfl
      | ok a => exact (hf a).agrees
  grows := by
    cases r' with
    | error e => intro a ha; cases ha
    | ok a => exact fun b hb => (h.grows a rfl).trans ((hf a).grows b hb)
  fits := by
    cases hr : r' with
    | error e => intro a ha; cases ha
    | ok a =>
      intro b hb hl
      rw [h.fits a hr (((hf a).grows b hb).trans hl), hr]
      exact (hf a).fits b hb hl
  bounded := by
    cases hr : r with
    | error e => intro a ha; cases ha
    | ok a => exact fun b hb hm => (hf a).bounded b hb (h.bounded a hr hm)

/-- A read at or past the limit is stuck. -/
theorem memRead_stuck {l a : Nat} (h : l ≤ a) (s : State) : memRead (some l) (a : Int) s = .error (.stuck .beyondMemLimit) := by
  simp [memRead, beyond, h, if_neg (show ¬ (a : Int) < 0 by omega)]

/-- A write at or past the limit is stuck. -/
theorem memWrite_stuck {l a : Nat} (h : l ≤ a) (v : Word) (s : State) :
    memWrite (some l) (a : Int) v s = .error (.stuck .beyondMemLimit) := by
  simp [memWrite, beyond, h, if_neg (show ¬ (a : Int) < 0 by omega)]

theorem within_memRead (l : Nat) (a : Int) (s : State) :
    Within l s.mlen (fun x => x.2.mlen) (memRead (some l) a s) (memRead none a s) := by
  unfold memRead
  by_cases hn : a < 0
  · simp only [if_pos hn]; exact within_error _
  · simp only [if_neg hn, beyond, Bool.false_eq_true, if_false, decide_eq_true_eq]
    by_cases hl : l ≤ a.toNat
    · simp only [if_pos hl]
      refine ⟨.inl rfl, fun b hb => ?_, fun b hb h => ?_, fun b hb => by cases hb⟩ <;> cases hb
      · exact le_max_left _ _
      · exact absurd ((le_max_right _ _).trans h) (by omega)
    · simp only [if_neg hl]
      refine ⟨.inr rfl, fun b hb => ?_, fun _ _ _ => rfl, fun b hb hm => ?_⟩ <;> cases hb
      · exact le_max_left _ _
      · exact max_le hm (by omega)

theorem within_memWrite (l : Nat) (a : Int) (v : Word) (s : State) :
    Within l s.mlen State.mlen (memWrite (some l) a v s) (memWrite none a v s) := by
  unfold memWrite
  by_cases hn : a < 0
  · simp only [if_pos hn]; exact within_error _
  · simp only [if_neg hn, beyond, Bool.false_eq_true, if_false, decide_eq_true_eq]
    by_cases hl : l ≤ a.toNat
    · simp only [if_pos hl]
      refine ⟨.inl rfl, fun b hb => ?_, fun b hb h => ?_, fun b hb => by cases hb⟩ <;> cases hb
      · exact le_max_left _ _
      · exact absurd ((le_max_right _ _).trans h) (by omega)
    · simp only [if_neg hl]
      refine ⟨.inr rfl, fun b hb => ?_, fun _ _ _ => rfl, fun b hb hm => ?_⟩ <;> cases hb
      · exact le_max_left _ _
      · exact max_le hm (by omega)

theorem within_touchCells (l n a : Nat) (s : State) :
    Within l s.mlen State.mlen (touchCells (some l) n a s) (touchCells none n a s) := by
  induction n generalizing a s with
  | zero => exact within_ok s s rfl
  | succ n ih => exact within_bind (within_memRead l a s) fun x => ih (a + 1) x.2

theorem within_fetchInstr (l n : Nat) (s : State) :
    Within l s.mlen State.mlen (fetchInstr (some l) n s) (fetchInstr none n s) :=
  within_bind (within_memRead l s.pc s) fun x =>
    within_bind (within_refl l x.2.mlen _) fun _ => within_touchCells l n (x.2.pc + 1) x.2

theorem within_rdParam (l : Nat) (p : Param) (s : State) :
    Within l s.mlen (fun x => x.2.mlen) (rdParam (some l) p s) (rdParam none p s) := by
  obtain ⟨mode, lit⟩ := p
  cases mode with
  | immediate => exact ⟨.inr rfl, fun a h => by cases h; exact le_refl _, fun _ _ _ => rfl, fun a h hm => by cases h; exact hm⟩
  | position => exact within_memRead l lit.toInt s
  | relative => exact within_bind (within_refl l s.mlen _) fun a => within_memRead l a.toInt s

theorem within_aluBody (l : Nat) (f : Int → Int → Except Stop Word) (p1 p2 p3 : Param) (s : State) :
    ∃ r r', aluOp (some l) f p1 p2 p3 s = commit s r ∧ aluOp none f p1 p2 p3 s = commit s r' ∧ Within l s.mlen State.mlen r r' :=
  ⟨_, _, rfl, rfl, within_bind (within_fetchInstr l 3 s) fun s1 => within_bind (within_rdParam l p1 s1) fun x =>
    within_bind (within_rdParam l p2 x.2) fun y => within_bind (within_refl l y.2.mlen _) fun d =>
    within_bind (within_refl l y.2.mlen _) fun r => within_bind (within_memWrite l d r y.2) fun s4 => within_ok s4 _ rfl⟩

theorem within_jumpBody (l : Nat) (taken : Word → Bool) (p1 p2 : Param) (s : State) :
    ∃ r r', jumpOp (some l) taken p1 p2 s = commit s r ∧ jumpOp none taken p1 p2 s = commit s r' ∧
      Within l s.mlen State.mlen r r' :=
  ⟨_, _, rfl, rfl, within_bind (within_fetchInstr l 2 s) fun s1 => within_bind (within_rdParam l p1 s1) fun x =>
    within_bind (within_rdParam l p2 x.2) fun y => by
      dsimp only
      split
      · split
        · exact within_error _
        · exact within_ok y.2 _ rfl
      · exact within_ok y.2 _ rfl⟩

/-- What a finite limit changes in an instruction. -/
theorem within_execWith (l : Nat) (i : Instr) (s : State) :
    ∃ r r', execWith (some l) i s = commit s r ∧ exec i s = commit s r' ∧ Within l s.mlen State.mlen r r' := by
  cases i with
  | add p1 p2 p3 => exact within_aluBody l (fun a b => chk (a + b)) p1 p2 p3 s
  | mul p1 p2 p3 => exact within_aluBody l (fun a b => chk (a * b)) p1 p2 p3 s
  | lt p1 p2 p3 => exact within_aluBody l (fun a b => .ok (truthWord (decide (a < b)))) p1 p2 p3 s
  | eq p1 p2 p3 => exact within_aluBody l (fun a b => .ok (truthWord (decide (a = b)))) p1 p2 p3 s
  | jt p1 p2 => exact within_jumpBody l (fun c => condTrue c) p1 p2 s
  | jf p1 p2 => exact within_jumpBody l (fun c => !condTrue c) p1 p2 s
  | inp p => exact ⟨_, _, rfl, rfl, within_bind (within_fetchInstr l 1 s) fun s1 =>
      within_bind (within_refl l s1.mlen _) fun d => within_ok s1 _ rfl⟩
  | out p => exact ⟨_, _, rfl, rfl, within_bind (within_fetchInstr l 1 s) fun s1 =>
      within_bind (within_rdParam l p s1) fun x => within_ok x.2 _ rfl⟩
  | arb p => exact ⟨_, _, rfl, rfl, within_bind (within_fetchInstr l 1 s) fun s1 =>
      within_bind (within_rdParam l p s1) fun x => within_bind (within_refl l x.2.mlen _) fun r => within_ok x.2 _ rfl⟩
  | hlt => exact ⟨_, _, rfl, rfl, within_bind (within_fetchInstr l 0 s) fun s1 => within_ok s1 _ rfl⟩

/-- Without a limit the instruction of a build is the spec's. -/
theorem execWith_none (i : Instr) (s : State) : execWith none i s = exec i s := by cases i <;> rfl

/-- The build without a limit is the spec's. -/
theorem ofLimit_none : Build.ofLimit none = Build.spec := by
  simp only [Build.ofLimit, Build.spec, Config.memLimit, Build.mk.injEq, true_and]
  funext i s
  exact execWith_none i s

end Sys2Proof.Machine
end

