-- ==== Sys2Proof/Laws/PerInstr.lean ====
section
/-! SUPPORT. Facts about instructions as syntax, one lemma for each constructor (the families of LAWS.json). -/

namespace Sys2Proof

/-- `EncodeShape`: an instruction's encoding has its length in cells (30_encoding.md R80), and the low two digits of its word are its
opcode number (R81, R83). -/
def Laws.EncodeShape.Statement (i : Instr) : Prop :=
  (encode i).length = i.length ∧ i.wordNat % 100 = i.opcode.code

theorem Laws.EncodeShape.add (p1 p2 p3 : Param) : Laws.EncodeShape.Statement (.add p1 p2 p3) :=
  ⟨rfl, by simp [Instr.wordNat, Instr.opcode, Opcode.code]⟩

theorem Laws.EncodeShape.mul (p1 p2 p3 : Param) : Laws.EncodeShape.Statement (.mul p1 p2 p3) :=
  ⟨rfl, by simp [Instr.wordNat, Instr.opcode, Opcode.code]⟩

theorem Laws.EncodeShape.inp (p1 : Param) : Laws.EncodeShape.Statement (.inp p1) :=
  ⟨rfl, by simp [Instr.wordNat, Instr.opcode, Opcode.code]⟩

theorem Laws.EncodeShape.out (p1 : Param) : Laws.EncodeShape.Statement (.out p1) :=
  ⟨rfl, by simp [Instr.wordNat, Instr.opcode, Opcode.code]⟩

theorem Laws.EncodeShape.jt (p1 p2 : Param) : Laws.EncodeShape.Statement (.jt p1 p2) :=
  ⟨rfl, by simp [Instr.wordNat, Instr.opcode, Opcode.code]⟩

theorem Laws.EncodeShape.jf (p1 p2 : Param) : Laws.EncodeShape.Statement (.jf p1 p2) :=
  ⟨rfl, by simp [Instr.wordNat, Instr.opcode, Opcode.code]⟩

theorem Laws.EncodeShape.lt (p1 p2 p3 : Param) : Laws.EncodeShape.Statement (.lt p1 p2 p3) :=
  ⟨rfl, by simp [Instr.wordNat, Instr.opcode, Opcode.code]⟩

theorem Laws.EncodeShape.eq (p1 p2 p3 : Param) : Laws.EncodeShape.Statement (.eq p1 p2 p3) :=
  ⟨rfl, by simp [Instr.wordNat, Instr.opcode, Opcode.code]⟩

theorem Laws.EncodeShape.arb (p1 : Param) : Laws.EncodeShape.Statement (.arb p1) :=
  ⟨rfl, by simp [Instr.wordNat, Instr.opcode, Opcode.code]⟩

theorem Laws.EncodeShape.hlt : Laws.EncodeShape.Statement .hlt :=
  ⟨rfl, by simp [Instr.wordNat, Instr.opcode, Opcode.code]⟩

end Sys2Proof
end

