-- ==== Sys2Proof/Laws/Run.lean ====
section
/-! SUPPORT. One turn of the run helper over the spec's build. -/

namespace Sys2Proof.Machine

theorem runHelper_zero (inputs outs : List Word) (s : State) : runHelper 0 inputs outs s = (.unfinished, s) := rfl

theorem runHelper_succ (fuel : Nat) (inputs outs : List Word) (s : State) :
    runHelper (fuel + 1) inputs outs s =
      match s.st with
      | .running =>
        match transact .step s with
        | .next (t, .cause c) => (.error c, t)
        | .next (t, _) => runHelper fuel inputs outs t
        | .fault f => (.stuck f, s)
        | .refused _ => (.unfinished, s)
      | .awaitingInput _ =>
        match inputs with
        | [] => (.inputExhausted, s)
        | x :: xs =>
          match transact (.resumeWithInput x.toInt) s with
          | .next (t, _) => runHelper fuel xs outs t
          | .fault f => (.stuck f, s)
          | .refused _ => (.unfinished, s)
      | .hasOutput v => runHelper fuel inputs (outs ++ [v]) (advanceOn .spec .acknowledgeOutput s)
      | .terminated => (.ok outs, s) := rfl

theorem advance_of_transact {t : Transaction} {s s' : State} {r : Reply} (h : transact t s = .next (s', r)) :
    advanceOn .spec t s = s' := by
  simp only [advanceOn, show transactOn Build.spec t s = _ from h]

end Sys2Proof.Machine
end

