-- ==== Sys2Proof/Tests/Slice0.lean ====
section
/-! SUPPORT. Tests: the checks of WellFormed, words written out from 30_encoding.md, steps of 95_test_vectors.md (the vector's id stands
at each test), and for every obligation with hypotheses a witness `witness_<Name>` that meets them. Expected results are the spec's. -/

open Sys2Proof Sys2Proof.Machine

namespace Sys2Proof.Tests

/-! ### Small states -/

/-- The instance constructed from an image. -/
def loaded (image : List Int) : State := State.reset.construct image

/-- The state of a `next` outcome. -/
def next? (o : Host.Outcome State Fault Refusal) : Option State :=
  match o with
  | .next t => some t
  | .fault _ => none
  | .refused _ => none

/-- State and reply of a transaction. -/
def reply? (o : Host.Outcome (State × Reply) Fault Refusal) : Option (State × Reply) :=
  match o with
  | .next r => some r
  | .fault _ => none
  | .refused _ => none

/-- What a test looks at after a step: `pc`, `mlen`, one cell as an integer, and `fault`. -/
structure Seen where
  pc : Nat
  mlen : Nat
  cell : Int
  fault : Option Cause
  deriving DecidableEq, Repr

/-- What one step leaves, with the cell at `a`. -/
def seen (s : State) (a : Nat) : Option Seen :=
  (next? (step s)).map fun t => ⟨t.pc, t.mlen, (t.mem.read a).toInt, t.fault⟩

/-! ### Well-formedness: a destination is never Immediate (20_memory.md R59, 30_encoding.md R92) -/

theorem test_wf_add_refuses_immediate_destination :
    (Instr.add ⟨.position, 0⟩ ⟨.position, 0⟩ ⟨.immediate, 0⟩).wellFormed = false := by decide
theorem test_wf_mul_refuses_immediate_destination :
    (Instr.mul ⟨.position, 0⟩ ⟨.position, 0⟩ ⟨.immediate, 0⟩).wellFormed = false := by decide
theorem test_wf_lt_refuses_immediate_destination :
    (Instr.lt ⟨.position, 0⟩ ⟨.position, 0⟩ ⟨.immediate, 0⟩).wellFormed = false := by decide
theorem test_wf_eq_refuses_immediate_destination :
    (Instr.eq ⟨.position, 0⟩ ⟨.position, 0⟩ ⟨.immediate, 0⟩).wellFormed = false := by decide
theorem test_wf_in_refuses_immediate_destination : (Instr.inp ⟨.immediate, 5⟩).wellFormed = false := by decide
theorem test_wf_allows_the_others :
    [Instr.add ⟨.immediate, 0⟩ ⟨.immediate, 0⟩ ⟨.relative, 0⟩, .inp ⟨.relative, 0⟩, .out ⟨.immediate, 0⟩,
      .jt ⟨.immediate, 0⟩ ⟨.immediate, 0⟩, .arb ⟨.immediate, 0⟩, .hlt].all Instr.wellFormed = true := by decide

/-! ### Decoding: cells written out from 30_encoding.md R83, R84, R87 (word `m_3 m_2 m_1 o o`, then the operands) -/

theorem test_decode_add : decode [1201, 3, 0, 0] = .ok (.add ⟨.relative, 3⟩ ⟨.immediate, 0⟩ ⟨.position, 0⟩) := by decide
theorem test_decode_mul : decode [20102, 5, 6, -1] = .ok (.mul ⟨.immediate, 5⟩ ⟨.position, 6⟩ ⟨.relative, -1⟩) := by decide
theorem test_decode_in : decode [203, 5] = .ok (.inp ⟨.relative, 5⟩) := by decide
theorem test_decode_out : decode [104, -5] = .ok (.out ⟨.immediate, -5⟩) := by decide
theorem test_decode_jt : decode [1205, 2, 16] = .ok (.jt ⟨.relative, 2⟩ ⟨.immediate, 16⟩) := by decide
theorem test_decode_jf : decode [2106, 0, 9] = .ok (.jf ⟨.immediate, 0⟩ ⟨.relative, 9⟩) := by decide
theorem test_decode_lt : decode [22207, 0, 1, 2] = .ok (.lt ⟨.relative, 0⟩ ⟨.relative, 1⟩ ⟨.relative, 2⟩) := by decide
theorem test_decode_eq : decode [1008, 21, 8, 20] = .ok (.eq ⟨.position, 21⟩ ⟨.immediate, 8⟩ ⟨.position, 20⟩) := by decide
theorem test_decode_arb : decode [109, -20] = .ok (.arb ⟨.immediate, -20⟩) := by decide
theorem test_decode_hlt : decode [99] = .ok .hlt := by decide

/-- VD1 to VD5, VD18 of 95_test_vectors.md. -/
theorem test_decode_rejects_opcodes :
    [0, 10, 98, 100, -1, -99, -199, 398].map decodeWord = List.replicate 8 (.error .invalidOpcode) := by decide

/-- VD6 to VD12, VH3, VH4 of 95_test_vectors.md. -/
theorem test_decode_rejects_digits :
    [301, 1301, 30001, 3005, 10005, 1003, 100001, 1000000001, 199, 1099, 10099].map decodeWord =
      List.replicate 11 (.error .invalidMode) := by decide

/-- The encoder on the worked example of 30_encoding.md R95. -/
theorem test_encode_add : encode (.add ⟨.immediate, 100⟩ ⟨.immediate, -1⟩ ⟨.position, 4⟩) = [1101, 100, -1, 4] := by decide

/-! ### One step of each instruction -/

/-- V1, V4. -/
theorem test_add : seen (loaded [1, 5, 6, 7, 99, 20, 22, 0]) 7 = some ⟨4, 8, 42, none⟩ ∧
    seen (loaded [1101, 2, 3, 10]) 10 = some ⟨4, 11, 5, none⟩ := by decide
/-- V6, V7, V8. -/
theorem test_add_edges : seen (loaded [1101, 9223372036854775807, 0, 5, 99, 0]) 5 = some ⟨4, 6, 9223372036854775807, none⟩ ∧
    seen (loaded [1101, 9223372036854775807, 1, 5, 99, 0]) 5 = some ⟨0, 6, 0, some .arithmeticOverflow⟩ ∧
    seen (loaded [1101, -9223372036854775808, -1, 5, 99, 0]) 5 = some ⟨0, 6, 0, some .arithmeticOverflow⟩ := by decide
/-- V9, V16 (its first step). -/
theorem test_mul : seen (loaded [1102, -3, 4, 5, 99, 0]) 5 = some ⟨4, 6, -12, none⟩ ∧
    seen (loaded [1002, 4, 3, 4, 33]) 4 = some ⟨4, 5, 99, none⟩ := by decide
/-- V12, V13, V14. -/
theorem test_mul_edges :
    seen (loaded [1102, 3037000499, 3037000499, 5, 99, 0]) 5 = some ⟨4, 6, 9223372030926249001, none⟩ ∧
    seen (loaded [1102, 3037000500, 3037000500, 5, 99, 0]) 5 = some ⟨0, 6, 0, some .arithmeticOverflow⟩ ∧
    seen (loaded [1102, -9223372036854775808, -1, 5, 99, 0]) 5 = some ⟨0, 6, 0, some .arithmeticOverflow⟩ := by decide
/-- V18, V20, V21. -/
theorem test_lt : seen (loaded [1107, 8, 8, 5, 99, 9]) 5 = some ⟨4, 6, 0, none⟩ ∧
    seen (loaded [1107, -1, 0, 5, 99, 9]) 5 = some ⟨4, 6, 1, none⟩ ∧
    seen (loaded [7, 5, 6, 5, 99, 3, 4]) 5 = some ⟨4, 7, 1, none⟩ := by decide
/-- V23, V24. -/
theorem test_eq : seen (loaded [1108, 7, 8, 5, 99, 9]) 5 = some ⟨4, 6, 0, none⟩ ∧
    seen (loaded [8, 5, 5, 0, 99, -2]) 0 = some ⟨4, 6, 1, none⟩ := by decide
/-- VJ2, VJ3, VJ4. -/
theorem test_jt : seen (loaded [1105, 0, 7, 99]) 0 = some ⟨3, 4, 1105, none⟩ ∧
    seen (loaded [1105, -1, 9]) 0 = some ⟨9, 3, 1105, none⟩ ∧ seen (loaded [5, 4, 5, 99, 2, 3]) 0 = some ⟨3, 6, 5, none⟩ := by decide
/-- VJ11, VJ12, VJ16. -/
theorem test_jt_negative_target : seen (loaded [1105, 1, -1]) 0 = some ⟨0, 3, 1105, some .invalidAddress⟩ ∧
    seen (loaded [1105, 0, -1, 99]) 0 = some ⟨3, 4, 1105, none⟩ ∧
    seen (loaded [105, 0, -1]) 0 = some ⟨0, 3, 105, some .invalidAddress⟩ := by decide
/-- VJ6, VJ7, VJ13. -/
theorem test_jf : seen (loaded [1106, 0, 4, 99, 104, 7, 99]) 0 = some ⟨4, 7, 1106, none⟩ ∧
    seen (loaded [1106, 5, 7, 99]) 0 = some ⟨3, 4, 1106, none⟩ ∧
    seen (loaded [1106, 0, -1]) 0 = some ⟨0, 3, 1106, some .invalidAddress⟩ := by decide
/-- VR4; the second steps of VR5 and VR6. -/
theorem test_arb : (next? (step (loaded [9, 3, 99, -8]))).map State.rb = some (-8) ∧
    (next? (step { loaded [109, 10, 209, 0, 99, 0, 0, 0, 0, 0, 32] with pc := 2, rb := 10 })).map State.rb = some 42 ∧
    (next? (step { loaded [109, 0, 109, 1, 99] with pc := 2, rb := 9223372036854775807 })).map (fun t => (t.pc, t.rb.toInt, t.fault)) =
      some (2, 9223372036854775807, some .arithmeticOverflow) := by decide
/-- VI1, the second step of VI2. -/
theorem test_in : (next? (step (loaded [3, 5, 99]))).map (fun t => (t.pc, t.st, t.mlen)) = some (2, .awaitingInput 5, 3) ∧
    (next? (step { loaded [109, 7, 203, 5, 99] with pc := 2, rb := 7 })).map (fun t => (t.pc, t.st)) =
      some (4, .awaitingInput 12) := by decide
/-- VI3, VI4. -/
theorem test_in_faults : (next? (step (loaded [103, 5, 99]))).map (fun t => (t.st, t.fault)) = some (.running, some .invalidWriteMode) ∧
    (next? (step (loaded [3, -1, 99]))).map (fun t => (t.st, t.fault)) = some (.running, some .invalidAddress) := by decide
/-- VI7, VI8, VI11. -/
theorem test_out : (next? (step (loaded [4, 2, 99]))).map (fun t => (t.pc, t.st)) = some (2, .hasOutput 99) ∧
    (next? (step (loaded [104, -5, 99]))).map State.st = some (.hasOutput (-5)) ∧
    (next? (step (loaded [4, 50, 99]))).map (fun t => (t.st, t.mlen)) = some (.hasOutput 0, 51) := by decide
/-- The second steps of VR7 and VR8. -/
theorem test_out_faults :
    (next? (step { loaded [109, 0, 204, 1, 99] with pc := 2, rb := 9223372036854775807 })).map State.fault =
      some (some .arithmeticOverflow) ∧
    (next? (step { loaded [109, 0, 204, 2, 99] with pc := 2, rb := -3 })).map State.fault = some (some .invalidAddress) := by decide
/-- VH1, VH3. -/
theorem test_hlt : (next? (step (loaded [99]))).map (fun t => (t.pc, t.st, t.mlen)) = some (1, .terminated, 1) ∧
    seen (loaded [199, 0, 0, 0]) 0 = some ⟨0, 4, 199, some .invalidMode⟩ := by decide

/-- VD13, VD16, VD17: the order of the causes. -/
theorem test_fault_order : seen (loaded [10001, 0, 0, 0]) 0 = some ⟨0, 4, 10001, some .invalidWriteMode⟩ ∧
    seen (loaded [10001, -5, 0, 0]) 0 = some ⟨0, 4, 10001, some .invalidAddress⟩ ∧
    seen (loaded [30001, -5, 0, 0]) 0 = some ⟨0, 4, 30001, some .invalidMode⟩ := by decide

/-- VD19: the empty image. VJ10: the growth of a step that raises is discarded. -/
theorem test_failed_step_grows_nothing : seen State.reset 0 = some ⟨0, 0, 0, some .invalidOpcode⟩ ∧
    seen { loaded [1105, 1, 50] with pc := 50 } 0 = some ⟨50, 3, 1105, some .invalidOpcode⟩ := by decide

/-! ### The host's transactions -/

/-- VI6: the resume. -/
theorem test_resume : (reply? (transact (.resumeWithInput (-42)) { loaded [3, 7, 99] with pc := 2, st := .awaitingInput 7 })).map
    (fun r => (r.1.st, r.1.pc, r.1.mlen, r.1.view.cells.map BitVec.toInt, r.2)) =
      some (.running, 2, 8, [3, 7, 99, 0, 0, 0, 0, -42], .ok) := by decide
/-- VI12, VI14: what is not admitted. -/
theorem test_misuse : (reply? (transact (.resumeWithInput 1) (loaded [3, 0, 4, 0, 99]))) = some (loaded [3, 0, 4, 0, 99], .misuse) ∧
    (reply? (transact .acknowledgeOutput { loaded [3, 0] with st := .awaitingInput 0 })) =
      some ({ loaded [3, 0] with st := .awaitingInput 0 }, .misuse) := by decide
/-- VD20: the fault is sticky. -/
theorem test_sticky : (reply? (transact .step (takeFault .invalidOpcode (loaded [0])))).map Prod.snd =
    some (.cause .invalidOpcode) := by decide
/-- 20_memory.md R62: a build of three cells is stuck at the fourth, and runs what fits. -/
theorem test_finite_build :
    stepWith (some 3) (loaded [4, 3, 99]) = .fault .beyondMemLimit ∧ (next? (stepWith (some 3) (loaded [4, 2, 99]))).map State.st =
      some (.hasOutput 99) := ⟨rfl, by decide⟩
/-- T4, VI17: the run helper. -/
theorem test_run : (runImage 6 [3, 0, 4, 0, 99] [7]).1 = .ok [7] ∧
    (runHelper 9 [] [5] (loaded [3, 0, 4, 0, 99])).1 = .inputExhausted := by decide
/-- A program loaded by the host's `construct` (log 4): from reset, two steps. -/
theorem test_load_from_reset :
    (((next? (step { State.reset with pending := [.construct [99]] })).bind fun t => next? (step t)).map
      fun t => (t.pc, t.st, t.replies)) = some (1, .terminated, [.ok]) := by decide

/-! ### Witnesses: the hypotheses of the obligations are met -/

theorem not_opcode_0 (op : Opcode) : op.code ≠ 0 := by cases op <;> decide

/-- Its clauses at -1, 0, a digit 3, a digit above the group, and the greatest digits. -/
theorem witness_DecodeFollowsTheDigits :
    (-1 : Word).toInt < 0 ∧ (0 ≤ (0 : Word).toInt ∧ ∀ op : Opcode, op.code ≠ (0 : Word).toNat % 100) ∧
    (0 ≤ (30001 : Word).toInt ∧ Opcode.add.code = (30001 : Word).toNat % 100 ∧ 3 ≤ Opcode.add.nparams ∧ 2 < dig 4 (30001 : Word).toNat) ∧
    (Opcode.add.code = (100001 : Word).toNat % 100 ∧ (100001 : Word).toNat / 10 ^ (Opcode.add.nparams + 2) ≠ 0) ∧
    ((∀ i, 1 ≤ i → i ≤ Opcode.add.nparams → dig (i + 1) (22201 : Word).toNat ≤ 2) ∧
      (22201 : Word).toNat / 10 ^ (Opcode.add.nparams + 2) = 0) := by
  refine ⟨by decide, ⟨by decide, fun op => by simpa using not_opcode_0 op⟩, by decide, by decide, fun i h1 h2 => ?_, by decide⟩
  have h3 : i ≤ 3 := h2
  interval_cases i <;> decide

theorem witness_MissingModeDigitIsPosition :
    (decodeWord 99 = .ok (.hlt, []) ∧ decodeWord 103 = .ok (.inp, [.immediate]) ∧ decodeWord 3 = .ok (.inp, [.position]) ∧
      0 < Opcode.inp.nparams ∧ (3 : Word).toNat < 10 ^ (0 + 2)) ∧
    (decodeWord 21001 = .ok (.add, [.position, .immediate, .relative]) ∧ 2 < Opcode.add.nparams) := by decide

theorem witness_ParameterCountsAreFixed :
    decodeWord 2105 = .ok (.jt, [.immediate, .relative]) ∧ decode [99] = .ok .hlt := by decide

/-- The ends of the ranges of undefined opcodes, and the greatest such word. -/
theorem witness_UndefinedOpcodesAreFatal :
    (0 ≤ (0 : Word).toInt ∧ (0 : Word).toNat % 100 = 0) ∧ (0 ≤ (10 : Word).toInt ∧ 10 ≤ (10 : Word).toNat % 100) ∧
    (0 ≤ (98 : Word).toInt ∧ (98 : Word).toNat % 100 ≤ 98) ∧
    (0 ≤ (9223372036854775800 : Word).toInt ∧ (9223372036854775800 : Word).toNat % 100 = 0) ∧
    (loaded [98]).canStep = true ∧ (loaded [98]).pending = [] ∧ (loaded [98]).mem.read (loaded [98]).pc = 98 ∧
    State.reset.canStep = true ∧ State.reset.pending = [] ∧ State.reset.mem.read State.reset.pc = 0 := by decide

theorem witness_IllegalModeDigitsAreFatal :
    (0 ≤ (301 : Word).toInt ∧ Opcode.add.code = (301 : Word).toNat % 100 ∧ 1 ≤ Opcode.add.nparams ∧ 3 ≤ dig 2 (301 : Word).toNat) ∧
    (0 ≤ (90001 : Word).toInt ∧ Opcode.add.code = (90001 : Word).toNat % 100 ∧ 3 ≤ Opcode.add.nparams ∧ 3 ≤ dig 4 (90001 : Word).toNat) ∧
    (loaded [301]).canStep = true ∧ (loaded [301]).pending = [] ∧ (loaded [301]).mem.read (loaded [301]).pc = 301 := by decide

theorem witness_NegativeAndOverlongWordsFault :
    ((loaded [-1]).canStep = true ∧ (loaded [-1]).pending = [] ∧ (loaded [-1]).mem.read (loaded [-1]).pc = -1 ∧ (-1 : Word).toInt < 0) ∧
    ((loaded [199]).canStep = true ∧ (loaded [199]).mem.read (loaded [199]).pc = 199 ∧ 0 ≤ (199 : Word).toInt ∧
      Opcode.hlt.code = (199 : Word).toNat % 100 ∧ (199 : Word).toNat / 10 ^ (Opcode.hlt.nparams + 2) ≠ 0) := by decide

theorem witness_EncodeOfDecode : decode [1105, 1, -1] = .ok (.jt ⟨.immediate, 1⟩ ⟨.immediate, -1⟩) ∧
    2 < (Instr.jt ⟨.immediate, 1⟩ ⟨.immediate, -1⟩).length := by decide

/-- The empty image, and the two ends of the word range. -/
theorem witness_ConstructGivesResetValues :
    ([] : List Int).length ≤ maxAddr + 1 ∧ [minInt, maxInt].length ≤ maxAddr + 1 ∧ ∀ v ∈ [minInt, maxInt], InWord v := by
  refine ⟨by decide, by decide, fun v hv => fits_iff.mp ?_⟩
  simp only [List.mem_cons, List.not_mem_nil, or_false] at hv
  rcases hv with rfl | rfl <;> decide

/-- A state at the last address. -/
def atEnd : State := { loaded [] with pc := maxAddr, mem := [(maxAddr, 99)], mlen := maxAddr + 1 }

theorem inv_atEnd : atEnd.Inv where
  pc_addr := by decide
  mem_wf := by decide
  mem_below := by decide
  mlen_bound := by decide
  awaiting_addr := fun d h => by cases h
  fault_running := fun h => absurd rfl h

theorem inv_loaded_hlt : (loaded [99]).Inv where
  pc_addr := by decide
  mem_wf := by decide
  mem_below := by decide
  mlen_bound := by decide
  awaiting_addr := fun d h => by cases h
  fault_running := fun h => absurd rfl h

theorem witness_StepKeepsInvariant : (∃ t, (loaded [99]).Inv ∧ step (loaded [99]) = .next t ∧ t.st = .terminated) ∧
    ∃ t, atEnd.Inv ∧ step atEnd = .next t ∧ t.fault = some .arithmeticOverflow :=
  ⟨⟨_, inv_loaded_hlt, rfl, rfl⟩, ⟨_, inv_atEnd, rfl, rfl⟩⟩

/-- With nothing to issue, and with a transaction that is not admitted waiting. -/
theorem witness_StepRunsTheDecodedInstruction :
    ∃ s : State, s.fault = none ∧ s.st = .running ∧ s.pending = [.acknowledgeOutput] ∧
      (∀ t ts, s.pending = t :: ts → t.admitted s = false) ∧
      decode [s.mem.read s.pc, s.mem.read (s.pc + 1), s.mem.read (s.pc + 2), s.mem.read (s.pc + 3)] = .ok (.out ⟨.immediate, 7⟩) := by
  refine ⟨{ loaded [104, 7] with pending := [.acknowledgeOutput] }, rfl, rfl, rfl, ?_, by decide⟩
  intro t ts h
  obtain ⟨rfl, -⟩ := List.cons.inj h
  decide

/-- A step that raises nothing, one whose instruction raises, and one whose word does not decode. -/
theorem witness_StepTransactionRunsTheInstruction :
    (∃ t, (loaded [104, 7]).fault = none ∧ (loaded [104, 7]).st = .running ∧ cycle (loaded [104, 7]) = .next t ∧ t.fault = none) ∧
    (∃ t, cycle (loaded [4, -1]) = .next t ∧ t.fault = some .invalidAddress) ∧
    decode [(loaded [4, -1]).mem.read 0, (loaded [4, -1]).mem.read 1, (loaded [4, -1]).mem.read 2, (loaded [4, -1]).mem.read 3] =
      .ok (.out ⟨.position, -1⟩) ∧
    (∃ t, exec (.out ⟨.position, -1⟩) (loaded [4, -1]) = .next t ∧ t.fault = some .invalidAddress) ∧
    decodeWord ((loaded [301]).mem.read 0) = .error .invalidMode :=
  ⟨⟨_, rfl, rfl, rfl, rfl⟩, ⟨_, rfl, rfl⟩, rfl, ⟨_, rfl, rfl⟩, rfl⟩

theorem witness_StepIssuesTheHostsTransaction :
    (∃ s : State, s.pending = [.inspect] ∧ Transaction.admitted .inspect s = true) ∧
    ∃ s : State, s.pending = [.step] ∧ s.canStep = false :=
  ⟨⟨{ loaded [99] with pending := [.inspect] }, rfl, rfl⟩, ⟨{ loaded [99] with pending := [.step], st := .terminated }, rfl, rfl⟩⟩

theorem witness_StoppedOrWaitingInstanceStays :
    (∃ s : State, s.pending = [] ∧ s.fault ≠ none) ∧ ∃ s : State, s.pending = [] ∧ s.st ≠ .running :=
  ⟨⟨takeFault .invalidOpcode (loaded [0]), rfl, by decide⟩, ⟨{ loaded [99] with st := .hasOutput 3 }, rfl, by decide⟩⟩

theorem witness_RaisingStepChangesOnlyFault :
    (∃ t, (loaded [0]).fault = none ∧ cycle (loaded [0]) = .next t ∧ t.fault = some .invalidOpcode) ∧
    ∃ t, exec (.out ⟨.position, -1⟩) (loaded [4, -1]) = .next t ∧ t.fault = some .invalidAddress :=
  ⟨⟨_, rfl, rfl, rfl⟩, ⟨_, rfl, rfl⟩⟩

theorem witness_FaultIsSticky :
    ∃ s t : State, s.fault = some .invalidOpcode ∧ (∀ image ts, s.pending ≠ .construct image :: ts) ∧ step s = .next t ∧
      t.replies = [.cause .invalidOpcode] :=
  ⟨{ takeFault .invalidOpcode (loaded [0]) with pending := [.step] }, _, rfl,
    fun _ _ h => Transaction.noConfusion (List.cons.inj h).1, rfl, rfl⟩

theorem witness_NothingLeavesTerminated :
    ∃ s t : State, s.st = .terminated ∧ (∀ image ts, s.pending ≠ .construct image :: ts) ∧ step s = .next t ∧ t.replies = [.misuse] :=
  ⟨{ loaded [99] with st := .terminated, pending := [.step] }, _, rfl,
    fun _ _ h => Transaction.noConfusion (List.cons.inj h).1, rfl, rfl⟩

theorem witness_OnlyInOutHltChangeSt :
    (∃ t, exec (.inp ⟨.position, 9223372036854775807⟩) (loaded []) = .next t ∧ t.st ≠ (loaded []).st) ∧
    (∃ t, exec (.out ⟨.immediate, 5⟩) (loaded []) = .next t ∧ t.st ≠ (loaded []).st) ∧
    ∃ t, exec .hlt (loaded []) = .next t ∧ t.st ≠ (loaded []).st :=
  ⟨⟨_, rfl, by decide⟩, ⟨_, rfl, by decide⟩, ⟨_, rfl, by decide⟩⟩

theorem witness_OnlyArbChangesRb :
    (∃ t, exec (.arb ⟨.immediate, 5⟩) (loaded []) = .next t ∧ t.rb ≠ (loaded []).rb) ∧
    ∃ (s t : State) (r : Reply), transact (.construct []) s = .next (t, r) ∧ Transaction.construct [] ≠ .step ∧ t.rb ≠ s.rb :=
  ⟨⟨_, rfl, by decide⟩, ⟨{ loaded [] with rb := 5 }, _, _, rfl, by decide, by decide⟩⟩

theorem witness_StepDependsOnPcRbMemOnly :
    ∃ s s' t : State, s.canStep = true ∧ s'.canStep = true ∧ s'.pc = s.pc ∧ s'.rb = s.rb ∧ s'.mem = s.mem ∧ s'.mlen ≠ s.mlen ∧
      cycle s = .next t :=
  ⟨loaded [99], { loaded [99] with mlen := 7 }, _, rfl, rfl, rfl, rfl, rfl, by decide, rfl⟩

theorem witness_GrowthNeverShrinksOrWrites :
    (∃ t, cycle (loaded [4, 50]) = .next t ∧ t.mlen = 51) ∧ ¬ Stores (.out ⟨.position, 50⟩) ∧
    ∃ t, exec (.out ⟨.position, 50⟩) (loaded [4, 50]) = .next t :=
  ⟨⟨_, rfl, rfl⟩, id, ⟨_, rfl⟩⟩

theorem witness_JumpToItselfSpins :
    ((loaded [1105, -7, 0]).canStep = true ∧ (loaded [1105, -7, 0]).pending = [] ∧ (loaded [1105, -7, 0]).pc + 3 ≤ maxAddr ∧
      decode (fetchCells (loaded [1105, -7, 0])) = .ok (.jt ⟨.immediate, -7⟩ ⟨.immediate, 0⟩) ∧
      readValue (loaded [1105, -7, 0]) ⟨.immediate, -7⟩ ≠ 0 ∧
      (readValue (loaded [1105, -7, 0]) ⟨.immediate, 0⟩).toInt = (loaded [1105, -7, 0]).pc) ∧
    (decode (fetchCells (loaded [106, 0, 7])) = .ok (.jf ⟨.immediate, 0⟩ ⟨.position, 7⟩) ∧
      readValue (loaded [106, 0, 7]) ⟨.immediate, 0⟩ = 0 ∧
      (readValue (loaded [106, 0, 7]) ⟨.position, 7⟩).toInt = (loaded [106, 0, 7]).pc) ∧
    Readable 0 ⟨.immediate, -7⟩ ∧ Readable 0 ⟨.position, 7⟩ := by
  simp only [Readable]; decide

/-- Every mode of a parameter, at the ends of the address range. -/
theorem witness_Readable : Readable 0 ⟨.position, 0⟩ ∧ Readable 0 ⟨.position, 9223372036854775807⟩ ∧ Readable 0 ⟨.immediate, -1⟩ ∧
    Readable (-3) ⟨.relative, 3⟩ ∧ Readable 9223372036854775807 ⟨.relative, 0⟩ := by
  simp only [Readable]; decide

theorem witness_Writable : Writable 0 ⟨.position, 0⟩ ∧ Writable 0 ⟨.position, 9223372036854775807⟩ ∧ Writable (-3) ⟨.relative, 3⟩ ∧
    Writable 9223372036854775807 ⟨.relative, 0⟩ := by
  simp only [Writable]; decide

/-- A state whose next four cells are the last ones that a step passes: `pc + 4 = MAXINT`. -/
def nearEnd : State := { loaded [7, -2] with pc := maxAddr - 4, rb := -3 }

theorem witness_NextFetchSeesTheStore : ∀ k < 4,
    (loaded [1101, 90, 9, 4]).pc + 4 ≤ maxAddr ∧ Readable (loaded [1101, 90, 9, 4]).rb ⟨.immediate, 90⟩ ∧
      Readable (loaded [1101, 90, 9, 4]).rb ⟨.immediate, 9⟩ ∧ Writable (loaded [1101, 90, 9, 4]).rb ⟨.position, BitVec.ofNat 64 (4 + k)⟩ ∧
      InWord ((readValue (loaded [1101, 90, 9, 4]) ⟨.immediate, 90⟩).toInt + (readValue (loaded [1101, 90, 9, 4]) ⟨.immediate, 9⟩).toInt) ∧
      InWord ((readValue (loaded [1101, 90, 9, 4]) ⟨.immediate, 90⟩).toInt * (readValue (loaded [1101, 90, 9, 4]) ⟨.immediate, 9⟩).toInt) ∧
      destAddr (loaded [1101, 90, 9, 4]).rb ⟨.position, BitVec.ofNat 64 (4 + k)⟩ = (loaded [1101, 90, 9, 4]).pc + 4 + k := by
  intro k hk
  refine ⟨by decide, trivial, trivial, ?_, fits_iff.mp (by decide), fits_iff.mp (by decide), ?_⟩
  · simp only [Writable]; interval_cases k <;> decide
  · interval_cases k <;> decide

/-- One cell, and all four. -/
theorem witness_PlacedInstructionRunsNext : decodeTableWord 16 99 = some .hlt ∧
    decodeTableWord 256 (1101 + 2 ^ 64 * 5 + 2 ^ 128 * 6 + 2 ^ 192 * 7) =
      some (.add ⟨.immediate, 5⟩ ⟨.immediate, 6⟩ ⟨.position, 7⟩) := by decide

theorem witness_MemReadPrimitive : (-1 : Int) < 0 ∧ 1 < (loaded [3, 5]).mlen ∧ (loaded [3, 5]).mlen ≤ 2 ∧
    (loaded [3, 5]).mlen ≤ maxAddr ∧ ∀ c ∈ (loaded [3, 5]).mem, c.1 ≠ 2 := by decide

theorem witness_MemWritePrimitive : (-1 : Int) < 0 ∧ (loaded [3, 5]).mem.wf = true ∧ (loaded [3, 5]).mlen ≤ 2 ∧
    ¬ (loaded [3, 5]).mlen ≤ 1 := by decide

theorem witness_CellsPastMlenReadZero : (loaded [99]).Inv ∧ (loaded [99]).mlen ≤ 1 ∧ (loaded [99]).mem.read 0 ≠ 0 :=
  ⟨inv_loaded_hlt, by decide, by decide⟩

theorem witness_FiniteMemLimitIsStuck :
    5 ≤ 5 ∧ 4 < 5 ∧ ({ loaded [99] with pc := 1 } : State).canStep = true ∧ ({ loaded [99] with pc := 1 } : State).pending = [] ∧
    1 ≤ ({ loaded [99] with pc := 1 } : State).pc ∧
    (∃ s : State, s.fault = none ∧ s.st = .awaitingInput 5 ∧ InWord (-1) ∧ 5 ≤ 5) ∧
    [3, (0 : Int)].length ≤ maxAddr + 1 ∧ (∀ v ∈ [3, (0 : Int)], InWord v) ∧ 1 < [3, (0 : Int)].length := by
  refine ⟨by decide, by decide, by decide, by decide, by decide,
    ⟨{ loaded [3, 5] with st := .awaitingInput 5 }, rfl, rfl, fits_iff.mp (by decide), by decide⟩, by decide, ?_, by decide⟩
  intro v hv
  simp only [List.mem_cons, List.not_mem_nil, or_false] at hv
  rcases hv with rfl | rfl <;> exact fits_iff.mp (by decide)

/-- An instruction that fits its build to the last cell, and the same in a build one cell smaller. -/
theorem witness_FiniteBuildRunsWhatFits :
    ∃ t, (loaded [4, 50]).mlen ≤ 50 ∧ exec (.out ⟨.position, 50⟩) (loaded [4, 50]) = .next t ∧ t.fault = none ∧
      t.mlen ≤ 51 ∧ ¬ t.mlen ≤ 50 :=
  ⟨_, by decide, rfl, rfl, by decide, by decide⟩

theorem witness_FiniteBuildKeepsInvariant :
    ∃ t, (loaded [99]).Inv ∧ (loaded [99]).mlen ≤ 1 ∧ stepWith (some 1) (loaded [99]) = .next t ∧ t.st = .terminated :=
  ⟨_, inv_loaded_hlt, by decide, rfl, rfl⟩

theorem witness_CanonicalMemoriesAreEqual : ∃ m m' : Memory, m.wf = true ∧ m'.wf = true ∧ (∀ a, m.read a = m'.read a) ∧ m ≠ [] :=
  ⟨[(3, 5), (8, -1)], [(3, 5), (8, -1)], rfl, rfl, fun _ => rfl, by decide⟩

/-- For AddCompletes and MulCompletes: sources of every readable mode, a destination at `rb + 3 = 0`, the last address that completes;
for LtCompletes and EqCompletes the same without the range of the result. -/
theorem witness_AddCompletes :
    nearEnd.pc + 4 ≤ maxAddr ∧ Readable nearEnd.rb ⟨.position, 0⟩ ∧ Readable nearEnd.rb ⟨.relative, 4⟩ ∧
      Writable nearEnd.rb ⟨.relative, 3⟩ ∧
      InWord ((readValue nearEnd ⟨.position, 0⟩).toInt + (readValue nearEnd ⟨.relative, 4⟩).toInt) ∧
      InWord ((readValue nearEnd ⟨.immediate, 9223372036854775807⟩).toInt + (readValue nearEnd ⟨.immediate, 0⟩).toInt) :=
  ⟨by decide, by simp only [Readable]; decide, by simp only [Readable]; decide, by simp only [Writable]; decide,
    fits_iff.mp (by decide), fits_iff.mp (by decide)⟩

theorem witness_MulCompletes :
    nearEnd.pc + 4 ≤ maxAddr ∧ Readable nearEnd.rb ⟨.position, 0⟩ ∧ Readable nearEnd.rb ⟨.relative, 4⟩ ∧
      Writable nearEnd.rb ⟨.relative, 3⟩ ∧
      InWord ((readValue nearEnd ⟨.position, 0⟩).toInt * (readValue nearEnd ⟨.relative, 4⟩).toInt) ∧
      InWord ((readValue nearEnd ⟨.immediate, -9223372036854775808⟩).toInt * (readValue nearEnd ⟨.immediate, 1⟩).toInt) :=
  ⟨by decide, by simp only [Readable]; decide, by simp only [Readable]; decide, by simp only [Writable]; decide,
    fits_iff.mp (by decide), fits_iff.mp (by decide)⟩

theorem witness_LtCompletes : nearEnd.pc + 4 ≤ maxAddr ∧ Readable nearEnd.rb ⟨.position, 0⟩ ∧ Readable nearEnd.rb ⟨.immediate, 0⟩ ∧
    Writable nearEnd.rb ⟨.position, 9223372036854775807⟩ := by
  simp only [Readable, Writable]; decide

theorem witness_EqCompletes : nearEnd.pc + 4 ≤ maxAddr ∧ Readable nearEnd.rb ⟨.relative, 3⟩ ∧ Readable nearEnd.rb ⟨.immediate, 0⟩ ∧
    Writable nearEnd.rb ⟨.relative, 3⟩ := by
  simp only [Readable, Writable]; decide

/-- Taken with target 0, and not taken with a negative target. -/
theorem witness_JtCompletes : nearEnd.pc + 3 ≤ maxAddr ∧ Readable nearEnd.rb ⟨.immediate, -1⟩ ∧ Readable nearEnd.rb ⟨.immediate, 0⟩ ∧
    readValue nearEnd ⟨.immediate, -1⟩ ≠ 0 ∧ 0 ≤ (readValue nearEnd ⟨.immediate, 0⟩).toInt ∧
    readValue nearEnd ⟨.relative, 500⟩ = 0 ∧ Readable nearEnd.rb ⟨.relative, 500⟩ := by
  simp only [Readable]; decide

theorem witness_JfCompletes : nearEnd.pc + 3 ≤ maxAddr ∧ Readable nearEnd.rb ⟨.position, 2⟩ ∧
    Readable nearEnd.rb ⟨.immediate, 9223372036854775807⟩ ∧ readValue nearEnd ⟨.position, 2⟩ = 0 ∧
    0 ≤ (readValue nearEnd ⟨.immediate, 9223372036854775807⟩).toInt ∧ readValue nearEnd ⟨.relative, 3⟩ ≠ 0 ∧
    Readable nearEnd.rb ⟨.relative, 3⟩ := by
  simp only [Readable]; decide

/-- The new base at the ends of the word range too. -/
theorem witness_ArbCompletes : nearEnd.pc + 2 ≤ maxAddr ∧ Readable nearEnd.rb ⟨.relative, 4⟩ ∧
    InWord (nearEnd.rb.toInt + (readValue nearEnd ⟨.relative, 4⟩).toInt) ∧
    InWord (nearEnd.rb.toInt + (readValue nearEnd ⟨.immediate, -9223372036854775805⟩).toInt) :=
  ⟨by decide, by simp only [Readable]; decide, fits_iff.mp (by decide), fits_iff.mp (by decide)⟩

theorem witness_InCompletes : nearEnd.pc + 2 ≤ maxAddr ∧ Writable nearEnd.rb ⟨.relative, 3⟩ ∧ Writable nearEnd.rb ⟨.position, 5⟩ := by
  simp only [Writable]; decide

theorem witness_OutCompletes : nearEnd.pc + 2 ≤ maxAddr ∧ Readable nearEnd.rb ⟨.relative, 3⟩ ∧ Readable nearEnd.rb ⟨.immediate, 5⟩ := by
  simp only [Readable]; decide

theorem witness_HltCompletes : (loaded [99]).pc + 1 ≤ maxAddr ∧ ({ loaded [99] with pc := maxAddr - 1 } : State).pc + 1 ≤ maxAddr := by
  decide

/-- Each of the four completes, with a destination and with none. -/
theorem witness_AluFrame :
    (∀ f ∈ [Instr.add, Instr.mul, Instr.lt, Instr.eq],
      ∃ t, exec (f ⟨.immediate, 2⟩ ⟨.immediate, 3⟩ ⟨.position, 9⟩) (loaded []) = .next t ∧ t.fault = none) ∧
    wrParam ⟨.position, 9⟩ (loaded []) = .ok 9 ∧
    (∀ f ∈ [Instr.add, Instr.mul, Instr.lt, Instr.eq],
      ∃ t, exec (f ⟨.immediate, 2⟩ ⟨.immediate, 3⟩ ⟨.immediate, 9⟩) (loaded []) = .next t) ∧
    ∀ d, wrParam ⟨.immediate, 9⟩ (loaded []) ≠ .ok d := by
  refine ⟨fun f hf => ?_, rfl, fun f hf => ?_, fun d h => ?_⟩
  · simp only [List.mem_cons, List.not_mem_nil, or_false] at hf
    rcases hf with rfl | rfl | rfl | rfl <;> exact ⟨_, rfl, rfl⟩
  · simp only [List.mem_cons, List.not_mem_nil, or_false] at hf
    rcases hf with rfl | rfl | rfl | rfl <;> exact ⟨_, rfl⟩
  · simp [wrParam] at h

theorem witness_NonStoringFrame :
    ∀ i ∈ [Instr.inp ⟨.position, 9⟩, .out ⟨.position, 9⟩, .jt ⟨.immediate, 1⟩ ⟨.immediate, 9⟩, .jf ⟨.immediate, 1⟩ ⟨.immediate, 9⟩,
      .arb ⟨.immediate, 4⟩, .hlt], ¬ Stores i ∧ ∃ t, exec i (loaded []) = .next t ∧ t.fault = none := by
  intro i hi
  simp only [List.mem_cons, List.not_mem_nil, or_false] at hi
  rcases hi with rfl | rfl | rfl | rfl | rfl | rfl <;> exact ⟨id, _, rfl, rfl⟩

/-- Each check of the list fires first somewhere: the successor at the first address where it does. -/
theorem witness_AluFaultsInOrder :
    firstFault [rangeFault ((maxAddr - 3 : Nat) + 4), readFault 0 ⟨.position, -1⟩, readFault 0 ⟨.position, 0⟩, writeFault 0 ⟨.immediate, 0⟩] =
      some .arithmeticOverflow ∧
    firstFault [rangeFault (0 + 4), readFault 0 ⟨.position, -1⟩, readFault 0 ⟨.position, 0⟩, writeFault 0 ⟨.immediate, 0⟩] =
      some .invalidAddress ∧
    firstFault [rangeFault (0 + 4), readFault 1 ⟨.immediate, 0⟩, readFault 1 ⟨.relative, 9223372036854775807⟩, writeFault 1 ⟨.immediate, 0⟩] =
      some .arithmeticOverflow ∧
    firstFault [rangeFault (0 + 4), readFault 0 ⟨.immediate, 0⟩, readFault 0 ⟨.immediate, 0⟩, writeFault 0 ⟨.immediate, 0⟩] =
      some .invalidWriteMode ∧
    ¬ InWord ((readValue nearEnd ⟨.immediate, 9223372036854775807⟩).toInt + (readValue nearEnd ⟨.immediate, 1⟩).toInt) ∧
    ¬ InWord ((readValue nearEnd ⟨.immediate, -9223372036854775808⟩).toInt * (readValue nearEnd ⟨.immediate, -1⟩).toInt) :=
  ⟨by decide, by decide, by decide, by decide, fun h => absurd (fits_iff.mpr h) (by decide), fun h => absurd (fits_iff.mpr h) (by decide)⟩

theorem witness_JumpFaultsInOrder :
    firstFault [rangeFault ((maxAddr - 2 : Nat) + 3), readFault 0 ⟨.immediate, 0⟩, readFault 0 ⟨.immediate, 0⟩] = some .arithmeticOverflow ∧
    firstFault [rangeFault (0 + 3), readFault 0 ⟨.immediate, 0⟩, readFault 0 ⟨.position, -1⟩] = some .invalidAddress ∧
    (readValue nearEnd ⟨.immediate, -1⟩).toInt < 0 ∧ readValue nearEnd ⟨.immediate, 1⟩ ≠ 0 ∧ readValue nearEnd ⟨.immediate, 0⟩ = 0 ∧
    nearEnd.pc + 3 ≤ maxAddr := by decide

theorem witness_ShortInstructionFaultsInOrder :
    firstFault [rangeFault ((maxAddr - 1 : Nat) + 2), readFault 0 ⟨.immediate, 0⟩] = some .arithmeticOverflow ∧
    firstFault [rangeFault (0 + 2), readFault 0 ⟨.position, -1⟩] = some .invalidAddress ∧
    firstFault [rangeFault (0 + 2), writeFault 0 ⟨.immediate, 0⟩] = some .invalidWriteMode ∧
    nearEnd.pc + 2 ≤ maxAddr ∧ ¬ InWord (nearEnd.rb.toInt + (readValue nearEnd ⟨.immediate, -9223372036854775806⟩).toInt) ∧
    maxAddr < atEnd.pc + 1 :=
  ⟨by decide, by decide, by decide, by decide, fun h => absurd (fits_iff.mpr h) (by decide), by decide⟩

theorem witness_ImmediateDestinationAlwaysFaults :
    (Instr.inp ⟨.immediate, 5⟩).wellFormed = false ∧ (⟨.immediate, 5⟩ : Param).mode = .immediate ∧ nearEnd.pc + 4 ≤ maxAddr ∧
    nearEnd.pc + 2 ≤ maxAddr ∧ Readable nearEnd.rb ⟨.position, 0⟩ := by
  simp only [Readable]; decide

/-- A destination at the last address; an input at the end of the word range and one past it. -/
theorem witness_ResumeWritesTheRecordedCell :
    (∃ s : State, s.fault = none ∧ s.st = .awaitingInput maxAddr) ∧ InWord (-9223372036854775808) ∧ ¬ InWord 9223372036854775808 :=
  ⟨⟨{ loaded [3, 0] with st := .awaitingInput maxAddr }, rfl, rfl⟩, fits_iff.mp (by decide), fun h => absurd (fits_iff.mpr h) (by decide)⟩

theorem witness_AcknowledgeOnlyRunsAgain : ∃ s : State, s.fault = none ∧ s.st = .hasOutput 5 :=
  ⟨{ loaded [104, 5] with st := .hasOutput 5 }, rfl, rfl⟩

theorem witness_TransactionNotAdmittedChangesNothing :
    (∃ s : State, s.fault = none ∧ s.st ≠ .running) ∧ (∃ s : State, s.fault = none ∧ ∀ d, s.st ≠ .awaitingInput d) ∧
    (∃ s : State, s.fault = none ∧ ∀ v, s.st ≠ .hasOutput v) ∧ ∃ s : State, s.fault = some .invalidOpcode :=
  ⟨⟨{ loaded [] with st := .terminated }, rfl, by decide⟩, ⟨loaded [], rfl, fun _ h => by cases h⟩,
    ⟨loaded [], rfl, fun _ h => by cases h⟩, ⟨takeFault .invalidOpcode (loaded [0]), rfl⟩⟩

theorem witness_ConstructRefusesWhatIsNoImage : ∃ v ∈ [0, (9223372036854775808 : Int)], ¬ InWord v :=
  ⟨9223372036854775808, by simp, fun h => absurd (fits_iff.mpr h) (by decide)⟩

theorem witness_SuspendThenResume :
    (loaded [3, 7, 99]).fault = none ∧ (loaded [3, 7, 99]).pc + 2 ≤ maxAddr ∧ Writable (loaded [3, 7, 99]).rb ⟨.position, 7⟩ ∧ InWord (-42) :=
  ⟨rfl, by decide, by simp only [Writable]; decide, fits_iff.mp (by decide)⟩

/-- Each end of a run that the statement speaks of. -/
theorem witness_RunHelperOutcomes :
    (loaded [99]).Inv ∧ (∃ t, runHelper 2 [] [7] (loaded [99]) = (.ok [7], t)) ∧
    (∃ t, runHelper 1 [] [] State.reset = (.error .invalidOpcode, t)) ∧
    (∃ t, runHelper 2 [] [] (loaded [3, 0]) = (.inputExhausted, t)) ∧
    (∃ s : State, s.fault = none ∧ s.st = .hasOutput 5) ∧ (∃ s : State, s.fault = none ∧ s.st = .awaitingInput 5) ∧
    ∃ s : State, s.st = .terminated :=
  ⟨inv_loaded_hlt, ⟨_, rfl⟩, ⟨_, rfl⟩, ⟨_, rfl⟩, ⟨{ loaded [] with st := .hasOutput 5 }, rfl, rfl⟩,
    ⟨{ loaded [] with st := .awaitingInput 5 }, rfl, rfl⟩, ⟨{ loaded [] with st := .terminated }, rfl⟩⟩

end Sys2Proof.Tests
end

namespace Sys2Proof.Machine

/-! ### The memory primitives: growth inside and past the end, and the fault below 0 (20_memory.md R52) -/

/-- An access below the end of the memory grows nothing (10_state.md R34). -/
theorem grow_of_lt {s : State} {a : Nat} (h : a < s.mlen) : s.grow a = s := by
  have hmax : max s.mlen (a + 1) = s.mlen := max_eq_left h
  rw [State.grow, hmax]

/-- An access at or past the end of the memory makes its cell the last one (10_state.md R34). -/
theorem grow_of_le {s : State} {a : Nat} (h : s.mlen ≤ a) : s.grow a = { s with mlen := a + 1 } := by
  have hmax : max s.mlen (a + 1) = a + 1 := max_eq_right (Nat.le_succ_of_le h)
  rw [State.grow, hmax]

/-- A negative address is refused before the limit is looked at. -/
theorem memRead_of_neg (limit : Option Nat) {a : Int} (h : a < 0) (s : State) :
    memRead limit a s = .error (.raise .invalidAddress) := if_pos h

/-- Settles O30: an address is negative (`memRead_of_neg`) or a natural number, where the read is the cell and the growth
(`memRead_nat`), and the growth depends on which side of `mlen` the address is. -/
theorem memReadPrimitive : Obligations.MemReadPrimitive := by
  refine ⟨fun a s hneg => memRead_of_neg _ hneg s, fun a s hin => ?inside, fun a s hout => ?past,
    fun a s hunlisted => read_of_not_mem hunlisted⟩
  case inside => rw [Config.memLimit, memRead_nat, grow_of_lt hin]
  case past => rw [Config.memLimit, memRead_nat, grow_of_le hout]

end Sys2Proof.Machine

namespace Sys2Proof

/-! ### The modes of a decoded word are its decimal digits above the opcode (30_encoding.md R82, R84) -/

/-- A digit of which the word is too short is 0. -/
theorem dig_eq_zero_of_lt {k w : Nat} (h : w < 10 ^ k) : dig k w = 0 := by
  rw [dig, Nat.div_eq_of_lt h]

/-- Digit `i + 2` of an opcode number with a mode group above it is the digit of mode `i`; above the modes it is 0. -/
theorem dig_add_two_code_add_encodeModes (op : Opcode) (ms : List Mode) (i : Nat) :
    dig (i + 2) (op.code + 100 * encodeModes ms) = (ms.map Mode.digit).getD i 0 := by
  have hgroup : (op.code + 100 * encodeModes ms) / 100 = encodeModes ms := by
    have := code_lt op
    omega
  have hpow : 10 ^ (i + 2) = 100 * 10 ^ i := by rw [Nat.pow_add, Nat.mul_comm]
  rw [dig, hpow, ← Nat.div_div_eq_div_mul, hgroup, digit_of_encodeModes]

/-- Every parameter of the opcode has a mode, and digit `i + 2` of the word is the digit of mode `i`. -/
theorem exists_mode_of_decodeWord {w : Word} {op : Opcode} {ms : List Mode} (h : decodeWord w = .ok (op, ms)) {i : Nat}
    (hi : i < op.nparams) : ∃ m, ms[i]? = some m ∧ dig (i + 2) w.toNat = m.digit := by
  obtain ⟨-, hlen, hw⟩ := decodeWord_eq_ok.mp h
  have hget : ms[i]? = some (ms[i]'(hlen ▸ hi)) := List.getElem?_eq_getElem _
  refine ⟨_, hget, ?_⟩
  rw [hw, dig_add_two_code_add_encodeModes]
  simp [hget]

/-- An instruction has as many parameters as its opcode. -/
theorem params_length (i : Instr) : i.params.length = i.opcode.nparams := by cases i <;> rfl

/-- Settles O3: the mode of a parameter is the one its digit stands for (`exists_mode_of_decodeWord`), and a digit that is
missing is 0, the digit of Position alone. -/
theorem missingModeDigitIsPosition : Obligations.MissingModeDigitIsPosition := by
  refine ⟨fun w op ms h i hi hshort => ?missing, fun w op ms h i hi => ?present, by decide, by decide, by decide⟩
  case missing =>
    obtain ⟨m, hm, hd⟩ := exists_mode_of_decodeWord h hi
    have hzero : Mode.position.digit = m.digit := (dig_eq_zero_of_lt hshort).symm.trans hd
    rw [hm, digit_injective hzero]
  case present =>
    obtain ⟨m, hm, hd⟩ := exists_mode_of_decodeWord h hi
    cases m with
    | position => exact .inl ⟨hd, hm⟩
    | immediate => exact .inr (.inl ⟨hd, hm⟩)
    | relative => exact .inr (.inr ⟨hd, hm⟩)

/-- Settles O4: the counts are the table's; a decoded word has as many modes as its opcode has parameters
(`decodeWord_eq_ok`), and every instruction, decoded or not, as many parameters (`params_length`). -/
theorem parameterCountsAreFixed : Obligations.ParameterCountsAreFixed := by
  refine ⟨by decide, by decide, by decide, rfl, fun w op ms h => ?modes, fun _ i _ => params_length i⟩
  case modes =>
    obtain ⟨-, hlen, -⟩ := decodeWord_eq_ok.mp h
    exact hlen

end Sys2Proof

namespace Sys2Proof.Machine

/-! ### The acknowledge of an output (45_host_operations.md R154) -/

/-- An acknowledge is admitted exactly where an instance without a fault holds an output (R150). -/
theorem admitted_acknowledge_iff {s : State} :
    Transaction.admitted .acknowledgeOutput s = true ↔ s.fault = none ∧ ∃ v, s.st = .hasOutput v := by
  rw [Transaction.admitted]
  cases hf : s.fault with
  | some c => simp
  | none => cases hs : s.st <;> simp

/-- The acknowledge of an output that is held sets `st` and nothing else. -/
theorem transact_acknowledge_of_hasOutput {s : State} {v : Word} (hf : s.fault = none) (hs : s.st = .hasOutput v) :
    transact .acknowledgeOutput s = .next ({ s with st := .running }, .ok) := by
  simp only [transact_acknowledge, hf, hs]

/-- Settles O54: what admits an acknowledge is `admitted_acknowledge_iff`, what it does then is
`transact_acknowledge_of_hasOutput`, and the view that `inspect` returns before it shows `st`, and with it the value. -/
theorem acknowledgeOnlyRunsAgain : Obligations.AcknowledgeOnlyRunsAgain := by
  refine ⟨fun s => admitted_acknowledge_iff, fun s v hf hs => ⟨?effect, s.view, ?inspected, ?value⟩⟩
  case effect => exact transact_acknowledge_of_hasOutput hf hs
  case inspected => exact transact_inspect s
  case value => exact hs

end Sys2Proof.Machine

namespace Sys2Proof

/-! ### Decode and encode agree (30_encoding.md R85, R95) -/

theorem nparams_le (op : Opcode) : op.nparams ≤ 3 := by cases op <;> decide

/-- An instruction word has five decimal digits at most. -/
theorem wordNat_lt (i : Instr) : i.wordNat < 100000 := by
  have hcode := code_lt i.opcode
  have hmodes := encodeModes_lt (i.params.map Param.mode)
  rw [List.length_map, params_length] at hmodes
  have hpow : 10 ^ i.opcode.nparams ≤ 10 ^ 3 := Nat.pow_le_pow_right (by decide) (nparams_le _)
  simp only [Instr.wordNat]
  omega

/-- A numeral below 2^63 is kept by the word made of it, and is not negative. -/
theorem toNat_ofNat_of_lt {n : Nat} (h : n < 2 ^ 63) :
    (BitVec.ofNat 64 n).toNat = n ∧ 0 ≤ (BitVec.ofNat 64 n).toInt := by
  have hn : (BitVec.ofNat 64 n).toNat = n := by
    rw [BitVec.toNat_ofNat]
    omega
  refine ⟨hn, ?_⟩
  rw [BitVec.toInt_eq_toNat_of_lt (by omega)]
  omega

/-- The word of an instruction decodes to its opcode and its modes. -/
theorem decodeWord_wordNat (i : Instr) :
    decodeWord (BitVec.ofNat 64 i.wordNat) = .ok (i.opcode, i.params.map Param.mode) := by
  obtain ⟨hnat, hnonneg⟩ := toNat_ofNat_of_lt (n := i.wordNat) (by have := wordNat_lt i; omega)
  exact decodeWord_eq_ok.mpr ⟨hnonneg, by rw [List.length_map, params_length], hnat⟩

/-- An instruction is assembled again from its opcode, its modes and its operands, whatever cells follow them. -/
theorem assemble_params (i : Instr) (rest : List Word) :
    assemble i.opcode (i.params.map Param.mode) (i.params.map Param.lit ++ rest) = i := by
  cases i <;> rfl

/-- Settles O8: the first cell decodes to the opcode and the modes (`decodeWord_wordNat`), and with the cells after it they
are assembled to the instruction (`assemble_params`). -/
theorem decodeOfEncode : Obligations.DecodeOfEncode := by
  intro i rest
  have hword : (encode i ++ rest).getD 0 0 = BitVec.ofNat 64 i.wordNat := rfl
  have htail : (encode i ++ rest).tail = i.params.map Param.lit ++ rest := rfl
  simp only [decode, hword, htail, decodeWord_wordNat, assemble_params]

/-! ### What decodes is an encoding -/

/-- What decodes is assembled from the decoded word and the cells after it. -/
theorem decode_eq_ok {cells : List Word} {i : Instr} :
    decode cells = .ok i ↔
      ∃ op ms, decodeWord (cells.getD 0 0) = .ok (op, ms) ∧ i = assemble op ms cells.tail := by
  rw [decode]
  cases decodeWord (cells.getD 0 0) with
  | error r => simp
  | ok x =>
    obtain ⟨op, ms⟩ := x
    simp [eq_comm]

/-- The opcode of an assembled instruction. -/
theorem assemble_opcode (op : Opcode) (ms : List Mode) (lits : List Word) : (assemble op ms lits).opcode = op := by
  cases op <;> rfl

/-- The parameters of an assembled instruction, in order. -/
theorem assemble_params_eq (op : Opcode) (ms : List Mode) (lits : List Word) :
    (assemble op ms lits).params = (List.range op.nparams).map fun k => ⟨ms.getD k .position, lits.getD k 0⟩ := by
  cases op <;> rfl

/-- The modes of an assembled instruction are those it was assembled from. -/
theorem assemble_modes {op : Opcode} {ms : List Mode} (lits : List Word) (h : ms.length = op.nparams) :
    (assemble op ms lits).params.map Param.mode = ms := by
  rw [assemble_params_eq, ← h]
  refine List.ext_getElem (by simp) fun k h1 h2 => ?_
  simp [h2]

/-- A word that decodes is the numeral of the instruction assembled from it. -/
theorem wordNat_assemble {w : Word} {op : Opcode} {ms : List Mode} (h : decodeWord w = .ok (op, ms)) (lits : List Word) :
    (assemble op ms lits).wordNat = w.toNat := by
  obtain ⟨-, hlen, hw⟩ := decodeWord_eq_ok.mp h
  rw [Instr.wordNat, assemble_opcode, assemble_modes lits hlen, hw]

/-- Settles O9: the first cell is the word that was decoded (`wordNat_assemble`), the others are the literals of the
parameters (`assemble_params_eq`). -/
theorem encodeOfDecode : Obligations.EncodeOfDecode := by
  intro cells i h
  refine ⟨by simp [encode, Instr.length], fun k hk => ?_⟩
  obtain ⟨op, ms, hw, rfl⟩ := decode_eq_ok.mp h
  cases k with
  | zero => simp [encode, wordNat_assemble hw]
  | succ k =>
    have hk' : k < op.nparams := by simpa [Instr.length, assemble_params_eq] using hk
    simp [encode, assemble_params_eq, hk', List.getElem?_tail]

/-! ### The decoder in terms of decimal digits (30_encoding.md R85, R88 to R91) -/

theorem decodeWord_of_neg {w : Word} (h : w.toInt < 0) : decodeWord w = .error .invalidOpcode := if_pos h

theorem decodeWord_of_undefined {w : Word} (h0 : 0 ≤ w.toInt) (h : ∀ op : Opcode, op.code ≠ w.toNat % 100) :
    decodeWord w = .error .invalidOpcode := by
  rw [decodeWord, if_neg (by omega), ofCode_eq_none.mpr h]

/-- The opcode a word decodes to is that of its low two digits. -/
theorem code_of_decodeWord {w : Word} {op : Opcode} {ms : List Mode} (h : decodeWord w = .ok (op, ms)) :
    op.code = w.toNat % 100 := by
  obtain ⟨-, -, hw⟩ := decodeWord_eq_ok.mp h
  have := code_lt op
  omega

/-- A word with a defined opcode is rejected for its modes unless it decodes with that opcode. -/
theorem decodeWord_invalidMode {w : Word} {op : Opcode} (h0 : 0 ≤ w.toInt) (ho : op.code = w.toNat % 100)
    (h : ∀ ms, decodeWord w ≠ .ok (op, ms)) : decodeWord w = .error .invalidMode := by
  cases hd : decodeWord w with
  | error r => rw [decodeWord_eq_error hd h0 ho]
  | ok x =>
    obtain ⟨op', ms⟩ := x
    obtain rfl : op = op' := code_injective (ho.trans (code_of_decodeWord hd).symm)
    exact absurd hd (h ms)

/-- A mode digit above 2 of a parameter the opcode has (R91). -/
theorem decodeWord_of_bad_digit {w : Word} {op : Opcode} {i : Nat} (h0 : 0 ≤ w.toInt) (ho : op.code = w.toNat % 100)
    (h1 : 1 ≤ i) (hi : i ≤ op.nparams) (hd : 2 < dig (i + 1) w.toNat) : decodeWord w = .error .invalidMode := by
  refine decodeWord_invalidMode h0 ho fun ms hok => ?_
  obtain ⟨m, -, hm⟩ := exists_mode_of_decodeWord hok (i := i - 1) (by omega)
  rw [show i - 1 + 2 = i + 1 by omega] at hm
  have := digit_le m
  omega

/-- A digit above the mode group (R89). -/
theorem decodeWord_of_overlong {w : Word} {op : Opcode} (h0 : 0 ≤ w.toInt) (ho : op.code = w.toNat % 100)
    (h : w.toNat / 10 ^ (op.nparams + 2) ≠ 0) : decodeWord w = .error .invalidMode := by
  refine decodeWord_invalidMode h0 ho fun ms hok => h (Nat.div_eq_of_lt ?_)
  obtain ⟨-, hlen, hw⟩ := decodeWord_eq_ok.mp hok
  have hmodes := encodeModes_lt ms
  have hcode := code_lt op
  rw [hlen] at hmodes
  rw [Nat.pow_add]
  omega

/-- Digits that are modes, with nothing above them, are a mode group. -/
theorem exists_encodeModes {n g : Nat} (hd : ∀ i < n, g / 10 ^ i % 10 ≤ 2) (hg : g / 10 ^ n = 0) :
    ∃ ms : List Mode, ms.length = n ∧ encodeModes ms = g := by
  induction n generalizing g with
  | zero => exact ⟨[], rfl, by simpa [encodeModes, eq_comm] using hg⟩
  | succ n ih =>
    have hshift : ∀ k, g / 10 ^ (k + 1) = g / 10 / 10 ^ k := fun k => by
      rw [Nat.pow_succ, Nat.mul_comm, Nat.div_div_eq_div_mul]
    obtain ⟨ms, hlen, hms⟩ := ih (g := g / 10) (fun i hi => by rw [← hshift]; exact hd (i + 1) (by omega))
      (by rw [← hshift]; exact hg)
    have hlow : g % 10 ≤ 2 := by simpa using hd 0 (by omega)
    cases hm : Mode.ofDigit (g % 10) with
    | none => exact absurd (ofDigit_eq_none.mp hm) (by omega)
    | some m =>
      have := ofDigit_eq_some.mp hm
      exact ⟨m :: ms, by rw [List.length_cons, hlen], by rw [encodeModes, hms]; omega⟩

/-- The modes of a decoded word are the digits above its opcode. -/
theorem digits_of_decodeWord {w : Word} {op : Opcode} {ms : List Mode} (h : decodeWord w = .ok (op, ms)) :
    ms.map Mode.digit = (List.range op.nparams).map fun i => dig (i + 2) w.toNat := by
  obtain ⟨-, hlen, -⟩ := decodeWord_eq_ok.mp h
  refine List.ext_getElem (by simp [hlen]) fun i h1 h2 => ?_
  obtain ⟨m, hm, hd⟩ := exists_mode_of_decodeWord h (i := i) (by simpa using h2)
  obtain ⟨_, rfl⟩ := List.getElem?_eq_some_iff.mp hm
  simp [hd]

/-- A word whose digits are an opcode and modes, with nothing above them, decodes. -/
theorem decodeWord_of_digits {w : Word} {op : Opcode} (h0 : 0 ≤ w.toInt) (ho : op.code = w.toNat % 100)
    (hd : ∀ i, 1 ≤ i → i ≤ op.nparams → dig (i + 1) w.toNat ≤ 2) (hg : w.toNat / 10 ^ (op.nparams + 2) = 0) :
    ∃ ms, decodeWord w = .ok (op, ms) := by
  have hshift : ∀ k, w.toNat / 10 ^ (k + 2) = w.toNat / 100 / 10 ^ k := fun k => by
    rw [Nat.pow_add, Nat.mul_comm, Nat.div_div_eq_div_mul]
  obtain ⟨ms, hlen, hms⟩ := exists_encodeModes (n := op.nparams) (g := w.toNat / 100)
    (fun i hi => by rw [← hshift]; exact hd (i + 1) (by omega) hi) (by rw [← hshift]; exact hg)
  exact ⟨ms, decodeWord_eq_ok.mpr ⟨h0, hlen, by omega⟩⟩

/-- Settles O2: one lemma for each clause of the rule, in its order. -/
theorem decodeFollowsTheDigits : Obligations.DecodeFollowsTheDigits := by
  refine fun w => ⟨decodeWord_of_neg, decodeWord_of_undefined, fun h0 op ho => ⟨?bad, decodeWord_of_overlong h0 ho, ?modes⟩⟩
  case bad =>
    rintro ⟨i, h1, hi, hd⟩
    exact decodeWord_of_bad_digit h0 ho h1 hi hd
  case modes =>
    intro hd hg
    obtain ⟨ms, hms⟩ := decodeWord_of_digits h0 ho hd hg
    exact ⟨ms, hms, digits_of_decodeWord hms⟩

/-! ### The legal words (30_encoding.md R94) -/

/-- The lists of `n` modes. -/
def modeLists : Nat → List (List Mode)
  | 0 => [[]]
  | n + 1 => ([.position, .immediate, .relative] ×ˢ modeLists n).map fun x => x.1 :: x.2

theorem mem_modeLists {n : Nat} {ms : List Mode} : ms ∈ modeLists n ↔ ms.length = n := by
  induction n generalizing ms with
  | zero => simp [modeLists]
  | succ n ih =>
    cases ms with
    | nil => simp [modeLists]
    | cons m ms => cases m <;> simp [modeLists, ih]

theorem nodup_modeLists (n : Nat) : (modeLists n).Nodup := by
  induction n with
  | zero => decide
  | succ n ih =>
    refine (List.Nodup.product (by decide) ih).map fun x y h => ?_
    obtain ⟨hm, hms⟩ := List.cons.inj h
    exact Prod.ext hm hms

/-- Every opcode with every list of as many modes as it has parameters. -/
def legalPairs : List (Σ _ : Opcode, List Mode) := Opcode.all.sigma fun op => modeLists op.nparams

theorem mem_legalPairs {op : Opcode} {ms : List Mode} : ⟨op, ms⟩ ∈ legalPairs ↔ ms.length = op.nparams := by
  have hall : op ∈ Opcode.all := by cases op <;> decide
  simp [legalPairs, hall, mem_modeLists]

theorem nodup_legalPairs : legalPairs.Nodup :=
  List.Nodup.sigma (by decide) fun op => nodup_modeLists op.nparams

/-- The word of an opcode and modes: that of the instruction they make with operands 0. -/
def pairWord (x : Σ _ : Opcode, List Mode) : Word := BitVec.ofNat 64 (assemble x.1 x.2 []).wordNat

theorem decodeWord_pairWord {op : Opcode} {ms : List Mode} (h : ms.length = op.nparams) :
    decodeWord (pairWord ⟨op, ms⟩) = .ok (op, ms) := by
  rw [pairWord, decodeWord_wordNat, assemble_opcode, assemble_modes [] h]

theorem pairWord_of_decodeWord {w : Word} {op : Opcode} {ms : List Mode} (h : decodeWord w = .ok (op, ms)) :
    pairWord ⟨op, ms⟩ = w := by
  rw [pairWord, wordNat_assemble h, BitVec.ofNat_toNat, BitVec.setWidth_eq]

/-- The words of the legal pairs that meet a condition: no word comes twice, and they are those that decode to such a pair. -/
theorem legalWords_spec (P : (Σ _ : Opcode, List Mode) → Bool) :
    ((legalPairs.filter P).map pairWord).Nodup ∧
      ∀ w, w ∈ (legalPairs.filter P).map pairWord ↔ ∃ op ms, decodeWord w = .ok (op, ms) ∧ P ⟨op, ms⟩ = true := by
  constructor
  · refine (nodup_legalPairs.filter P).map_on fun x hx y hy hxy => ?_
    obtain ⟨opx, msx⟩ := x
    obtain ⟨opy, msy⟩ := y
    have hdx := decodeWord_pairWord (mem_legalPairs.mp (List.mem_filter.mp hx).1)
    have hdy := decodeWord_pairWord (mem_legalPairs.mp (List.mem_filter.mp hy).1)
    rw [hxy, hdy] at hdx
    cases hdx
    rfl
  · intro w
    rw [List.mem_map]
    constructor
    · rintro ⟨⟨op, ms⟩, hx, rfl⟩
      obtain ⟨hlegal, hP⟩ := List.mem_filter.mp hx
      exact ⟨op, ms, decodeWord_pairWord (mem_legalPairs.mp hlegal), hP⟩
    · rintro ⟨op, ms, hd, hP⟩
      obtain ⟨-, hlen, -⟩ := decodeWord_eq_ok.mp hd
      exact ⟨⟨op, ms⟩, List.mem_filter.mpr ⟨mem_legalPairs.mpr hlen, hP⟩, pairWord_of_decodeWord hd⟩

/-- Settles O10: the words are those of the legal pairs (`legalWords_spec`), all of them or those whose instruction is
well-formed, and the pairs are counted. -/
theorem countOfLegalWords : Obligations.CountOfLegalWords := by
  obtain ⟨hnodup, hmem⟩ := legalWords_spec fun _ => true
  obtain ⟨hnodup', hmem'⟩ := legalWords_spec fun x => (assemble x.1 x.2 []).wellFormed
  refine ⟨⟨_, hnodup, ?all, fun w => (hmem w).trans (by simp)⟩, ⟨_, hnodup', ?wellFormed, hmem'⟩⟩
  case all => rfl
  case wellFormed => rfl

/-- Settles O1: the decoder evaluated on each word. -/
theorem sampleWordsDecode : Obligations.SampleWordsDecode := by
  refine ⟨?_, ?_, ?_, ?_, ?_, ?_, ?_, ?_, ?_, ?_, ?_, ?_⟩ <;> decide

end Sys2Proof

namespace Sys2Proof.Machine

/-! ### Memory (20_memory.md R53, 10_state.md R33, R35) -/

theorem memWrite_of_neg (limit : Option Nat) {a : Int} (h : a < 0) (v : Word) (s : State) :
    memWrite limit a v s = .error (.raise .invalidAddress) := if_pos h

/-- Settles O31: a write to an address is `memWrite_nat`; what the memory reads then, and its form, are the laws of
`Memory.write`. -/
theorem memWritePrimitive : Obligations.MemWritePrimitive := by
  refine ⟨fun a v s hneg => memWrite_of_neg _ hneg v s, fun a v s => ⟨_, memWrite_nat a v s, ?_⟩⟩
  refine ⟨read_write_same _ _ _, fun b hb => read_write_ne _ _ hb, wf_write a v, ?growth, rfl, rfl, rfl, rfl, rfl, rfl⟩
  case growth =>
    rw [grow_mlen]
    split <;> omega

/-- Settles O32: the listed cells are below `mlen`, so a cell at or past it is not listed. -/
theorem cellsPastMlenReadZero : Obligations.CellsPastMlenReadZero := fun _ _ hinv hle =>
  read_of_not_mem fun c hc => Nat.ne_of_lt ((hinv.mem_below c hc).trans_le hle)

/-- A canonical memory that begins with a cell reads no other memory's 0 there: the other begins at that address or before. -/
theorem head_le_of_read_eq {a b : Nat} {v w : Word} {m m' : Memory} (h : Memory.wf ((a, v) :: m) = true)
    (h' : Memory.wf ((b, w) :: m') = true) (hread : ∀ x, Memory.read ((a, v) :: m) x = Memory.read ((b, w) :: m') x) :
    b ≤ a := by
  obtain ⟨-, hv, -⟩ := wf_cons.mp h
  obtain ⟨hlt, -, -⟩ := wf_cons.mp h'
  by_contra hab
  have hzero : Memory.read ((b, w) :: m') a = 0 := read_of_lt fun c hc => by
    rcases List.mem_cons.mp hc with rfl | hc
    · exact Nat.lt_of_not_le hab
    · exact (Nat.lt_of_not_le hab).trans (hlt c hc)
  exact hv (by simpa [Memory.read] using (hread a).trans hzero)

/-- A canonical memory that reads 0 everywhere lists no cell. -/
theorem eq_nil_of_read_eq_zero {m : Memory} (h : m.wf = true) (hread : ∀ a, m.read a = 0) : m = [] := by
  cases m with
  | nil => rfl
  | cons c m =>
    obtain ⟨-, hv, -⟩ := wf_cons.mp h
    exact absurd (by simpa [Memory.read] using hread c.1) hv

/-- Settles O36, by induction on one memory: the first cells agree (`head_le_of_read_eq` both ways), and so do the rests,
which read 0 at the first address. -/
theorem canonicalMemoriesAreEqual : Obligations.CanonicalMemoriesAreEqual := by
  intro m
  induction m with
  | nil => exact fun m' _ h' hread => (eq_nil_of_read_eq_zero h' fun a => (hread a).symm).symm
  | cons c m ih =>
    obtain ⟨a, v⟩ := c
    intro m' h h' hread
    cases m' with
    | nil => exact eq_nil_of_read_eq_zero h hread
    | cons c' m' =>
      obtain ⟨b, w⟩ := c'
      obtain rfl : a = b := Nat.le_antisymm (head_le_of_read_eq h' h fun x => (hread x).symm) (head_le_of_read_eq h h' hread)
      obtain rfl : v = w := by simpa [Memory.read] using hread a
      obtain ⟨hlt, -, hm⟩ := wf_cons.mp h
      obtain ⟨hlt', -, hm'⟩ := wf_cons.mp h'
      have hrest : m = m' := ih m' hm hm' fun x => by
        by_cases hx : a = x
        · rw [← hx, read_of_lt hlt, read_of_lt hlt']
        · simpa [Memory.read, hx] using hread x
      rw [hrest]

/-! ### The invariant (10_state.md R35): which parts of the model keep it -/

/-- The host's lists are not in the invariant. -/
theorem inv_host {s : State} (h : s.Inv) (ts : List Transaction) (rs : List Reply) :
    State.Inv { s with pending := ts, replies := rs } :=
  ⟨h.pc_addr, h.mem_wf, h.mem_below, h.mlen_bound, h.awaiting_addr, h.fault_running⟩

/-- A machine that runs may take a fault. -/
theorem inv_takeFault {s : State} (h : s.Inv) (hrun : s.st = .running) (c : Cause) : (takeFault c s).Inv :=
  { h with fault_running := fun _ => hrun }

/-- A write of an address below the end the memory then has. -/
theorem inv_write {s : State} (h : s.Inv) {d pc n : Nat} (v : Word) (hpc : pc ≤ maxAddr) (hn : max s.mlen (d + 1) ≤ n)
    (hn' : n ≤ maxAddr + 1) : State.Inv { s with pc := pc, mem := s.mem.write d v, mlen := n } :=
  { h with
    pc_addr := hpc
    mem_wf := wf_write d v h.mem_wf
    mem_below := fun c hc => by
      rcases mem_write hc with hd | hc
      · show c.1 < n
        omega
      · exact lt_of_lt_of_le (h.mem_below c hc) (le_of_max_le_left hn)
    mlen_bound := hn' }

/-- A new `pc`, base and `st`, and growth, where the machine has no fault. -/
theorem inv_run {s : State} (h : s.Inv) (hf : s.fault = none) {pc n : Nat} (rb : Word) (st : RunState) (hpc : pc ≤ maxAddr)
    (hn : s.mlen ≤ n) (hn' : n ≤ maxAddr + 1) (hst : ∀ d, st = .awaitingInput d → d ≤ maxAddr) :
    State.Inv { s with pc := pc, rb := rb, st := st, mlen := n } :=
  { h with
    pc_addr := hpc
    mem_below := fun c hc => lt_of_lt_of_le (h.mem_below c hc) hn
    mlen_bound := hn'
    awaiting_addr := hst
    fault_running := fun hne => absurd hf hne }

/-- An instruction that completes keeps the invariant of a machine that can step. -/
theorem inv_effect {i : Instr} {s t : State} (h : s.Inv) (hf : s.fault = none) (he : Effect i s t) : t.Inv := by
  have hb := h.mlen_bound
  cases he with
  | store hi p hp hd r n hpc hn hn' => exact inv_write h r hpc hn (by omega)
  | jump hi pc n hpc hn hn' => exact inv_run h hf s.rb s.st hpc hn (by omega) h.awaiting_addr
  | arb p hi r n hpc hn hn' => exact inv_run h hf r s.st hpc hn (by omega) h.awaiting_addr
  | inp p hi hd n hpc hn hn' =>
    exact inv_run h hf s.rb _ hpc hn (by omega) fun d hst => RunState.awaitingInput.inj hst ▸ destAddr_le hd
  | out p hi v n hpc hn hn' => exact inv_run h hf s.rb _ hpc hn (by omega) fun d hst => by cases hst
  | hlt hi n hpc hn hn' => exact inv_run h hf s.rb _ hpc hn (by omega) fun d hst => by cases hst

/-- The outcome of an instruction is a fault taken or its effect. -/
theorem exec_next {i : Instr} {s t : State} (h : exec i s = .next t) : (∃ c, t = takeFault c s) ∨ Effect i s t := by
  rcases exec_cases i s with ⟨c, hc⟩ | ⟨t', ht, he⟩
  · exact .inl ⟨c, Host.Outcome.next.inj (h.symm.trans hc)⟩
  · exact .inr (Host.Outcome.next.inj (h.symm.trans ht) ▸ he)

/-- What a cycle can leave: the same state where no step is admitted, a fault taken, or an instruction's effect. -/
theorem cycle_next {s t : State} (h : cycle s = .next t) :
    (s.canStep = false ∧ t = s) ∨ (s.canStep = true ∧ ((∃ c, t = takeFault c s) ∨ ∃ i, Effect i s t)) := by
  rcases cycle_cases s with ⟨hc, hs⟩ | ⟨hc, ⟨c, hs⟩ | ⟨i, -, hs⟩⟩
  · exact .inl ⟨hc, Host.Outcome.next.inj (h.symm.trans hs)⟩
  · exact .inr ⟨hc, .inl ⟨c, Host.Outcome.next.inj (h.symm.trans hs)⟩⟩
  · rcases exec_next (hs.symm.trans h) with hfault | he
    · exact .inr ⟨hc, .inl hfault⟩
    · exact .inr ⟨hc, .inr ⟨i, he⟩⟩

theorem inv_cycle {s t : State} (h : s.Inv) (hs : cycle s = .next t) : t.Inv := by
  rcases cycle_next hs with ⟨-, rfl⟩ | ⟨hc, ⟨c, rfl⟩ | ⟨i, he⟩⟩
  · exact h
  · exact inv_takeFault h (canStep_iff.mp hc).2 c
  · exact inv_effect h (canStep_iff.mp hc).1 he

/-- The machine constructed from an image, whatever was there. -/
theorem inv_construct {image : List Int} (hl : image.length ≤ maxAddr + 1) (s : State) : (s.construct image).Inv where
  pc_addr := Nat.zero_le _
  mem_wf := wf_store 0 _ rfl
  mem_below := fun c hc => by
    rcases mem_store hc with ⟨-, hlt⟩ | hc
    · simpa using hlt
    · cases hc
  mlen_bound := hl
  awaiting_addr := fun d hst => by cases hst
  fault_running := fun _ => rfl

/-- Every transaction keeps the invariant. -/
theorem inv_transactEffect {tr : Transaction} {s t : State} {r : Reply} (h : s.Inv) (he : TransactEffect s tr t r) : t.Inv := by
  cases he with
  | nothing => exact h
  | construct im hl hw => exact inv_construct hl s
  | stepOk _ hc hs hf => exact inv_cycle h hs
  | stepRaise _ c hc hs hf => exact inv_cycle h hs
  | resume x d hf hst hx =>
    have hd := h.awaiting_addr d hst
    have hb := h.mlen_bound
    have hw := inv_write h (d := d) (Word.ofInt x) h.pc_addr (le_refl _) (by omega)
    exact inv_run hw hf s.rb .running h.pc_addr (le_refl _) hw.mlen_bound fun _ hr => by cases hr
  | acknowledge v hf hst => exact inv_run h hf s.rb .running h.pc_addr (le_refl _) h.mlen_bound fun _ hr => by cases hr

/-- A transaction that is issued answers, with its effect and its result kept. -/
theorem issue_cases (tr : Transaction) (s : State) :
    ∃ t r, TransactEffect s tr t r ∧ transact tr s = .next (t, r) ∧ issue tr s = .next { t with replies := t.replies ++ [r] } := by
  obtain ⟨t, r, ht, he⟩ := transact_cases tr s
  exact ⟨t, r, he, ht, issue_of_transact ht⟩

/-- What a step can leave: what the cycle leaves, or the effect of the host's next transaction with its result kept. -/
theorem step_next {s t : State} (h : step s = .next t) :
    cycle s = .next t ∨ ∃ tr ts u r, s.pending = tr :: ts ∧ TransactEffect { s with pending := ts } tr u r ∧
      t = { u with replies := u.replies ++ [r] } := by
  rcases step_cases s with ⟨-, hs⟩ | ⟨tr, ts, hp, -, hs⟩
  · exact .inl (hs.symm.trans h)
  · obtain ⟨u, r, he, -, hu⟩ := issue_cases tr { s with pending := ts }
    exact .inr ⟨tr, ts, u, r, hp, he, Host.Outcome.next.inj (h.symm.trans (hs.trans hu))⟩

/-- Settles O14: the invariant is kept by the machine's cycle (`inv_cycle`) and by every transaction
(`inv_transactEffect`), and a step is one of the two. -/
theorem stepKeepsInvariant : Obligations.StepKeepsInvariant := by
  intro s t hinv hs
  rcases step_next hs with hc | ⟨tr, ts, u, r, -, he, rfl⟩
  · exact inv_cycle hinv hc
  · exact inv_host (inv_transactEffect (inv_host hinv ts s.replies) he) u.pending _

/-- Settles O13: reset is the machine constructed from the empty image. -/
theorem invariantHoldsAtReset : Obligations.InvariantHoldsAtReset :=
  inv_construct (image := []) (Nat.zero_le _) State.reset

/-- Settles O11: reset lists no cell, and an unlisted cell reads 0; the other values are written in its definition. -/
theorem resetValues : Obligations.ResetValues :=
  ⟨rfl, rfl, rfl, rfl, fun _ => read_of_not_mem (by simp [State.reset]), rfl, rfl, rfl⟩

/-- A cell of a constructed memory holds the image's value, and 0 past the image. -/
theorem toInt_read_construct {image : List Int} (hw : ∀ v ∈ image, InWord v) (s : State) (a : Nat) :
    ((s.construct image).mem.read a).toInt = image.getD a 0 := by
  have hread := read_store [] (image.map Word.ofInt) 0 a fun _ _ => rfl
  rw [Nat.zero_add] at hread
  rw [construct_mem, hread]
  rcases Nat.lt_or_ge a image.length with ha | ha
  · simpa [ha] using toInt_ofInt (hw _ (List.getElem_mem ha))
  · simp [ha]

/-- Settles O12: a sequence of words is an image, and `construct` makes its machine of it. -/
theorem constructGivesResetValues : Obligations.ConstructGivesResetValues := by
  intro image s hl hw
  refine ⟨s.construct image, ?answer, rfl, rfl, rfl, rfl, rfl, toInt_read_construct hw s, rfl, rfl, inv_construct hl s⟩
  case answer => rw [transact_construct, if_pos (isImage_iff.mpr ⟨hl, hw⟩)]

end Sys2Proof.Machine

namespace Sys2Proof.Machine

/-! ### A build with a finite memory limit (20_memory.md R62) -/

/-- Below the limit a read is the one without it. -/
theorem memRead_of_lt {l a : Nat} (h : a < l) (s : State) : memRead (some l) (a : Int) s = memRead none a s := by
  simp [memRead, beyond, Nat.not_le.mpr h]

/-- Below the limit a write is the one without it. -/
theorem memWrite_of_lt {l a : Nat} (h : a < l) (v : Word) (s : State) :
    memWrite (some l) (a : Int) v s = memWrite none a v s := by
  simp [memWrite, beyond, Nat.not_le.mpr h]

/-- `o`, with the limit `l`, against `o'`, without one, from a memory of length `m`: it is stuck or the same, and does not
leave a memory longer than the limit. What `Within` says of the steps inside an instruction, said of outcomes. -/
structure Limited {σ : Type} (l m : Nat) (len : σ → Nat) (o o' : Host.Outcome σ Fault Refusal) : Prop where
  agrees : o = .fault .beyondMemLimit ∨ o = o'
  bounded : ∀ t, o = .next t → m ≤ l → len t ≤ l

theorem limited_fault {σ : Type} {l m : Nat} {len : σ → Nat} (o' : Host.Outcome σ Fault Refusal) :
    Limited l m len (.fault .beyondMemLimit) o' where
  agrees := .inl rfl
  bounded := fun _ h => by cases h

theorem limited_next {σ : Type} {l m : Nat} {len : σ → Nat} (t : σ) (h : m ≤ l → len t ≤ l) :
    Limited l m len (.next t) (.next t) where
  agrees := .inr rfl
  bounded := fun _ ht => by cases ht; exact h

theorem limited_commit {l : Nat} {s : State} {r r' : Except Stop State} (h : Within l s.mlen State.mlen r r') :
    Limited l s.mlen State.mlen (commit s r) (commit s r') where
  agrees := by
    rcases h.agrees with rfl | rfl
    · exact .inl rfl
    · exact .inr rfl
  bounded := fun t ht hm => by
    cases r with
    | ok a => cases ht; exact h.bounded _ rfl hm
    | error e =>
      cases e with
      | raise c => cases ht; exact hm
      | stuck f => cases ht

theorem limited_execWith (l : Nat) (i : Instr) (s : State) :
    Limited l s.mlen State.mlen (execWith (some l) i s) (exec i s) := by
  obtain ⟨r, r', hr, hr', hw⟩ := within_execWith l i s
  rw [hr, hr']
  exact limited_commit hw

/-- The cycle of a build is stuck where its limit is at the instruction word or below it. -/
theorem cycleOn_stuck {l : Nat} {s : State} (hc : s.canStep = true) (h : l ≤ s.pc) :
    cycleOn (.ofLimit (some l)) s = .fault .beyondMemLimit := by
  simp only [cycleOn, Build.ofLimit, hc, if_true, memRead_stuck h, commit_stuck]

theorem limited_cycleOn (l : Nat) (s : State) :
    Limited l s.mlen State.mlen (cycleOn (.ofLimit (some l)) s) (cycle s) := by
  cases hc : s.canStep with
  | false =>
    have hs : cycleOn (.ofLimit (some l)) s = .next s := by simp [cycleOn, hc]
    have hs' : cycle s = .next s := by simp [cycle_eq, hc]
    rw [hs, hs']
    exact limited_next s id
  | true =>
    rcases Nat.lt_or_ge s.pc l with hl | hl
    · cases hd : decode (fetchCells s) with
      | error r =>
        rw [cycle_of_reject hc hd]
        simp only [cycleOn, Build.ofLimit, hc, if_true, memRead_of_lt hl, memRead_nat, hd]
        exact limited_next _ id
      | ok i =>
        rw [cycle_of_decode hc hd]
        simp only [cycleOn, Build.ofLimit, hc, if_true, memRead_of_lt hl, memRead_nat, hd]
        exact limited_execWith l i s
    · rw [cycleOn_stuck hc hl]
      exact limited_fault _

/-- An image that does not fit the limit is not constructed. -/
theorem transactOn_construct_stuck {l : Nat} {image : List Int} (hi : isImage image = true) (h : l < image.length) (s : State) :
    transactOn (.ofLimit (some l)) (.construct image) s = .fault .beyondMemLimit := by
  simp [transactOn, hi, overLimit, Build.ofLimit, h]

/-- An input for a cell at or past the limit is not written. -/
theorem transactOn_resume_stuck {l d : Nat} {x : Int} {s : State} (hf : s.fault = none) (hs : s.st = .awaitingInput d)
    (hx : InWord x) (h : l ≤ d) : transactOn (.ofLimit (some l)) (.resumeWithInput x) s = .fault .beyondMemLimit := by
  simp only [transactOn, hf, hs, if_pos (fits_iff.mpr hx), Build.ofLimit, memWrite_stuck h]

theorem limited_construct (l : Nat) (image : List Int) (s : State) :
    Limited l s.mlen (fun x => x.1.mlen) (transactOn (.ofLimit (some l)) (.construct image) s)
      (transact (.construct image) s) := by
  rw [transact_construct]
  by_cases hi : isImage image = true
  · rcases Nat.lt_or_ge l image.length with hl | hl
    · rw [transactOn_construct_stuck hi hl]
      exact limited_fault _
    · have hs : transactOn (.ofLimit (some l)) (.construct image) s = .next (s.construct image, .ok) := by
        simp [transactOn, hi, overLimit, Build.ofLimit, Nat.not_lt.mpr hl]
      rw [hs, if_pos hi]
      exact limited_next _ fun _ => hl
  · have hs : transactOn (.ofLimit (some l)) (.construct image) s = .next (s, .refused) := by simp [transactOn, hi]
    rw [hs, if_neg hi]
    exact limited_next _ id

theorem limited_stepTransaction (l : Nat) (s : State) :
    Limited l s.mlen (fun x => x.1.mlen) (transactOn (.ofLimit (some l)) .step s) (transact .step s) := by
  obtain ⟨hagrees, hbounded⟩ := limited_cycleOn l s
  rw [transact_step, transactOn]
  cases hc : s.canStep with
  | false => exact limited_next _ id
  | true =>
    simp only [if_true]
    rcases hagrees with hstuck | hsame
    · rw [hstuck]
      exact limited_fault _
    · rw [← hsame]
      cases hs : cycleOn (.ofLimit (some l)) s with
      | next t => cases hf : t.fault <;> simp only [hf] <;> exact limited_next _ (hbounded t hs)
      | fault f => exact ⟨.inr rfl, fun _ h => by cases h⟩
      | refused r => exact ⟨.inr rfl, fun _ h => by cases h⟩

theorem limited_resume (l : Nat) (x : Int) (s : State) :
    Limited l s.mlen (fun y => y.1.mlen) (transactOn (.ofLimit (some l)) (.resumeWithInput x) s)
      (transact (.resumeWithInput x) s) := by
  cases hf : s.fault with
  | some c =>
    simp only [transact_resume, transactOn, hf]
    exact limited_next _ id
  | none =>
    cases hs : s.st with
    | awaitingInput d =>
      by_cases hx : InWord x
      · rcases Nat.lt_or_ge d l with hl | hl
        · simp only [transact_resume, transactOn, hf, hs, if_pos (fits_iff.mpr hx), Build.ofLimit, memWrite_of_lt hl, memWrite_nat]
          exact limited_next _ fun hm => Nat.max_le.mpr ⟨hm, hl⟩
        · rw [transactOn_resume_stuck hf hs hx hl]
          exact limited_fault _
      · simp only [transact_resume, transactOn, hf, hs, if_neg (mt fits_iff.mp hx)]
        exact limited_next _ id
    | _ =>
      simp only [transact_resume, transactOn, hf, hs]
      exact limited_next _ id

theorem limited_acknowledge (l : Nat) (s : State) :
    Limited l s.mlen (fun y => y.1.mlen) (transactOn (.ofLimit (some l)) .acknowledgeOutput s)
      (transact .acknowledgeOutput s) := by
  cases hf : s.fault <;> cases hs : s.st <;> simp only [transact_acknowledge, transactOn, hf, hs] <;> exact limited_next _ id

theorem limited_transactOn (l : Nat) (tr : Transaction) (s : State) :
    Limited l s.mlen (fun y => y.1.mlen) (transactOn (.ofLimit (some l)) tr s) (transact tr s) := by
  cases tr with
  | construct image => exact limited_construct l image s
  | step => exact limited_stepTransaction l s
  | resumeWithInput x => exact limited_resume l x s
  | acknowledgeOutput => exact limited_acknowledge l s
  | inspect => exact limited_next (s, Reply.view s.view) id

theorem limited_issueOn (l : Nat) (tr : Transaction) (s : State) :
    Limited l s.mlen State.mlen (issueOn (.ofLimit (some l)) tr s) (issue tr s) := by
  obtain ⟨hagrees, hbounded⟩ := limited_transactOn l tr s
  obtain ⟨t, r, -, ht, hissue⟩ := issue_cases tr s
  rw [hissue, issueOn]
  rcases hagrees with hstuck | hsame
  · rw [hstuck]
    exact limited_fault _
  · rw [hsame, ht]
    exact limited_next _ (hbounded (t, r) (hsame.trans ht))

theorem limited_stepWith (l : Nat) (s : State) : Limited l s.mlen State.mlen (stepWith (some l) s) (step s) := by
  rw [stepWith, step_eq, moveOn]
  cases hp : s.pending with
  | nil => exact limited_cycleOn l s
  | cons tr ts =>
    dsimp only
    split
    · exact limited_issueOn l tr { s with pending := ts }
    · exact limited_cycleOn l s

/-- Settles O35: with a finite limit the step is the spec's, which keeps the invariant, and leaves no memory longer than the
limit (`limited_stepWith`). -/
theorem finiteBuildKeepsInvariant : Obligations.FiniteBuildKeepsInvariant := by
  intro l s t hinv hm ht
  obtain ⟨hagrees, hbounded⟩ := limited_stepWith l s
  refine ⟨?_, hbounded t ht hm⟩
  rcases hagrees with hstuck | hsame
  · rw [hstuck] at ht
    cases ht
  · exact stepKeepsInvariant s t hinv (hsame.symm.trans ht)

/-- Settles O33: what is stuck at each place, and the primitives below the limit. -/
theorem finiteMemLimitIsStuck : Obligations.FiniteMemLimitIsStuck := by
  refine ⟨fun l a v s => ⟨?primitivesAt, ?primitivesBelow⟩, fun l s hc hp hl => ?fetch,
    fun l d x s hf hs hx hl => transactOn_resume_stuck hf hs hx hl,
    fun l image s hlen hw hl => transactOn_construct_stuck (isImage_iff.mpr ⟨hlen, hw⟩) hl s⟩
  case primitivesAt => exact fun h => ⟨memRead_stuck h s, memWrite_stuck h v s⟩
  case primitivesBelow => exact fun h => ⟨memRead_of_lt h s, memWrite_of_lt h v s⟩
  case fetch =>
    simp only [stepWith, moveOn, hp]
    exact cycleOn_stuck hc hl

/-- An instruction that completes without a limit completes in a build where the memory it leaves fits, and is stuck where
it does not. -/
theorem execWith_of_completes {l : Nat} {i : Instr} {s t : State} (hm : s.mlen ≤ l) (ht : exec i s = .next t)
    (hf : t.fault = none) : execWith (some l) i s = if t.mlen ≤ l then .next t else .fault .beyondMemLimit := by
  obtain ⟨r, r', hr, hr', hw⟩ := within_execWith l i s
  rw [hr'] at ht
  cases r' with
  | error e =>
    cases e with
    | raise c => cases ht; cases hf
    | stuck f => cases ht
  | ok a =>
    cases ht
    rw [hr]
    split
    · rename_i hfits
      rw [hw.fits t rfl hfits, commit_ok]
    · rename_i hlong
      rcases hw.agrees with rfl | rfl
      · rfl
      · exact absurd (hw.bounded t rfl hm) hlong

/-- Settles O34: without a limit the build is the spec's (`ofLimit_none`); with one every part of it is `Limited`. -/
theorem finiteBuildRunsWhatFits : Obligations.FiniteBuildRunsWhatFits := by
  refine ⟨execWith_none, fun s => ?step, fun tr s => ?transaction, fun l i s => (limited_execWith l i s).agrees,
    fun l s => (limited_stepWith l s).agrees, fun l tr s => (limited_transactOn l tr s).agrees,
    fun l i s t hm ht hf => execWith_of_completes hm ht hf⟩
  case step => rw [stepWith, ofLimit_none]; rfl
  case transaction => rw [ofLimit_none]; rfl

end Sys2Proof.Machine

namespace Sys2Proof.Machine

/-! ### The instructions of the two shared shapes, at the spec's limit -/

theorem exec_add (p1 p2 p3 : Param) (s : State) : exec (.add p1 p2 p3) s = aluOp none (fun a b => chk (a + b)) p1 p2 p3 s := rfl
theorem exec_mul (p1 p2 p3 : Param) (s : State) : exec (.mul p1 p2 p3) s = aluOp none (fun a b => chk (a * b)) p1 p2 p3 s := rfl
theorem exec_lt (p1 p2 p3 : Param) (s : State) :
    exec (.lt p1 p2 p3) s = aluOp none (fun a b => .ok (truthWord (decide (a < b)))) p1 p2 p3 s := rfl
theorem exec_eq (p1 p2 p3 : Param) (s : State) :
    exec (.eq p1 p2 p3) s = aluOp none (fun a b => .ok (truthWord (decide (a = b)))) p1 p2 p3 s := rfl
theorem exec_jt (p1 p2 : Param) (s : State) : exec (.jt p1 p2) s = jumpOp none (fun c => condTrue c) p1 p2 s := rfl
theorem exec_jf (p1 p2 : Param) (s : State) : exec (.jf p1 p2) s = jumpOp none (fun c => !condTrue c) p1 p2 s := rfl

/-- The four instructions that store have the ALU shape, each with its result. -/
theorem exec_alu {f : Param → Param → Param → Instr} (hf : f ∈ [Instr.add, Instr.mul, Instr.lt, Instr.eq]) :
    ∃ g, ∀ p1 p2 p3 s, exec (f p1 p2 p3) s = aluOp none g p1 p2 p3 s := by
  simp only [List.mem_cons, List.not_mem_nil, or_false] at hf
  rcases hf with rfl | rfl | rfl | rfl
  · exact ⟨_, exec_add⟩
  · exact ⟨_, exec_mul⟩
  · exact ⟨_, exec_lt⟩
  · exact ⟨_, exec_eq⟩

/-- The two jumps have the jump shape, each with its test. -/
theorem exec_jump {f : Param → Param → Instr} (hf : f ∈ [Instr.jt, Instr.jf]) :
    ∃ taken, ∀ p1 p2 s, exec (f p1 p2) s = jumpOp none taken p1 p2 s := by
  simp only [List.mem_cons, List.not_mem_nil, or_false] at hf
  rcases hf with rfl | rfl
  · exact ⟨_, exec_jt⟩
  · exact ⟨_, exec_jf⟩

/-! ### The instructions where they complete (40_alu.md, 41_jumps.md, 42_relbase.md, 43_io.md, 44_halt.md) -/

/-- The shape of ADD, MUL, LT, EQ where every check passes and the result is a word. -/
theorem aluOp_completes {f : Int → Int → Except Stop Word} {p1 p2 p3 : Param} {s : State} {r : Word}
    (h0 : s.pc + 4 ≤ maxAddr) (h1 : Readable s.rb p1) (h2 : Readable s.rb p2) (h3 : Writable s.rb p3)
    (hr : f (readValue s p1).toInt (readValue s p2).toInt = .ok r) :
    aluOp none f p1 p2 p3 s = .next { s with
      pc := s.pc + 4
      mem := s.mem.write (destAddr s.rb p3) r
      mlen := max (max s.mlen (s.pc + 4)) (max (max (readReach s.rb p1) (readReach s.rb p2)) (destAddr s.rb p3 + 1)) } := by
  simp only [aluOp_eq, aluChecks_none h0 h1 h2 h3, hr, max_assoc]

/-- The result of a comparison as the statements write it. -/
theorem truthWord_decide (P : Prop) [Decidable P] : truthWord (decide P) = if P then 1 else 0 := by simp [truthWord]

/-- Settles O37: the ALU shape, whose result is the sum. -/
theorem addCompletes : Obligations.AddCompletes := by
  intro p1 p2 p3 s h0 h1 h2 h3 hsum
  rw [exec_add, aluOp_completes h0 h1 h2 h3 (chk_of_inWord hsum)]

/-- Settles O38: the ALU shape, whose result is the product. -/
theorem mulCompletes : Obligations.MulCompletes := by
  intro p1 p2 p3 s h0 h1 h2 h3 hprod
  rw [exec_mul, aluOp_completes h0 h1 h2 h3 (chk_of_inWord hprod)]

/-- Settles O39: the ALU shape, whose result is the comparison's 1 or 0. -/
theorem ltCompletes : Obligations.LtCompletes := by
  intro p1 p2 p3 s h0 h1 h2 h3
  rw [exec_lt, aluOp_completes h0 h1 h2 h3 rfl, truthWord_decide]

/-- Settles O40: the ALU shape, whose result is the test's 1 or 0. -/
theorem eqCompletes : Obligations.EqCompletes := by
  intro p1 p2 p3 s h0 h1 h2 h3
  rw [exec_eq, aluOp_completes h0 h1 h2 h3 rfl, truthWord_decide]

/-- The shape of JT and JF where the jump is taken, to a target that is not negative. -/
theorem jumpOp_taken {taken : Word → Bool} {p1 p2 : Param} {s : State} (h0 : s.pc + 3 ≤ maxAddr) (h1 : Readable s.rb p1)
    (h2 : Readable s.rb p2) (ht : taken (readValue s p1) = true) (hn : 0 ≤ (readValue s p2).toInt) :
    jumpOp none taken p1 p2 s = .next { s with
      pc := (readValue s p2).toInt.toNat
      mlen := max (max s.mlen (s.pc + 3)) (max (readReach s.rb p1) (readReach s.rb p2)) } := by
  simp only [jumpOp_eq, jumpChecks_none h0 h1 h2, ht, not_lt.mpr hn, and_false, if_true, if_false, max_assoc]

/-- The shape of JT and JF where the jump is not taken. -/
theorem jumpOp_not_taken {taken : Word → Bool} {p1 p2 : Param} {s : State} (h0 : s.pc + 3 ≤ maxAddr) (h1 : Readable s.rb p1)
    (h2 : Readable s.rb p2) (ht : taken (readValue s p1) = false) :
    jumpOp none taken p1 p2 s = .next { s with
      pc := s.pc + 3
      mlen := max (max s.mlen (s.pc + 3)) (max (readReach s.rb p1) (readReach s.rb p2)) } := by
  simp only [jumpOp_eq, jumpChecks_none h0 h1 h2, ht, Bool.false_eq_true, false_and, if_false, max_assoc]

theorem condTrue_iff {c : Word} : condTrue c = true ↔ c ≠ 0 := by simp [condTrue]

theorem condTrue_eq_false_iff {c : Word} : condTrue c = false ↔ c = 0 := by simp [condTrue]

/-- Settles O41: the jump shape, taken where the condition is not 0. -/
theorem jtCompletes : Obligations.JtCompletes := fun _ _ _ h0 h1 h2 =>
  ⟨fun hc hn => jumpOp_taken h0 h1 h2 (condTrue_iff.mpr hc) hn,
    fun hc => jumpOp_not_taken h0 h1 h2 (condTrue_eq_false_iff.mpr hc)⟩

/-- Settles O42: the jump shape, taken where the condition is 0. -/
theorem jfCompletes : Obligations.JfCompletes := fun _ _ _ h0 h1 h2 =>
  ⟨fun hc hn => jumpOp_taken (taken := fun c => !condTrue c) h0 h1 h2 (by simp [condTrue_eq_false_iff.mpr hc]) hn,
    fun hc => jumpOp_not_taken (taken := fun c => !condTrue c) h0 h1 h2 (by simp [condTrue_iff.mpr hc])⟩

/-- The successor's check of an instruction of `k` cells passes where `pc + k` is an address. -/
theorem successorFault_none {s : State} {k : Nat} (h : s.pc + k ≤ maxAddr) : rangeFault ((s.pc : Int) + k) = none :=
  rangeFault_nat h

/-- Settles O43: no check of `execArb_eq` reports a cause. -/
theorem arbCompletes : Obligations.ArbCompletes := by
  intro p s h0 h1 hsum
  have hsucc : rangeFault ((s.pc : Int) + 2) = none := successorFault_none h0
  simp only [exec, execArb_eq, hsucc, readFault_eq_none.mpr h1, rangeFault_eq_none.mpr hsum, firstFault]

/-- Settles O44: no check of `execInp_eq` reports a cause. -/
theorem inCompletes : Obligations.InCompletes := by
  intro p s h0 h1
  have hsucc : rangeFault ((s.pc : Int) + 2) = none := successorFault_none h0
  simp only [exec, execInp_eq, hsucc, writeFault_eq_none.mpr h1, firstFault]

/-- Settles O45: no check of `execOut_eq` reports a cause. -/
theorem outCompletes : Obligations.OutCompletes := by
  intro p s h0 h1
  have hsucc : rangeFault ((s.pc : Int) + 2) = none := successorFault_none h0
  simp only [exec, execOut_eq, hsucc, readFault_eq_none.mpr h1, firstFault]

/-- Settles O46: the one check of `execHlt_eq` passes. -/
theorem hltCompletes : Obligations.HltCompletes := by
  intro s h0
  have hsucc : rangeFault ((s.pc : Int) + 1) = none := successorFault_none h0
  simp only [exec, execHlt_eq, hsucc]

/-! ### The instructions where they raise (60_exceptions.md R176) -/

/-- A value that is no word overflows. -/
theorem rangeFault_of_not_inWord {v : Int} (h : ¬ InWord v) : rangeFault v = some .arithmeticOverflow :=
  if_neg (mt fits_iff.mp h)

/-- The first failing check of the ALU shape is the fault taken. -/
theorem aluOp_faults {f : Int → Int → Except Stop Word} {p1 p2 p3 : Param} {s : State} {c : Cause}
    (h : firstFault [rangeFault (s.pc + 4), readFault s.rb p1, readFault s.rb p2, writeFault s.rb p3] = some c) :
    aluOp none f p1 p2 p3 s = .next (takeFault c s) := by
  simp only [aluOp_eq, h]

/-- A result of the ALU shape that is no word. -/
theorem aluOp_overflows {g : Int → Int → Int} {p1 p2 p3 : Param} {s : State} (h0 : s.pc + 4 ≤ maxAddr)
    (h1 : Readable s.rb p1) (h2 : Readable s.rb p2) (h3 : Writable s.rb p3)
    (hr : ¬ InWord (g (readValue s p1).toInt (readValue s p2).toInt)) :
    aluOp none (fun a b => chk (g a b)) p1 p2 p3 s = .next (takeFault .arithmeticOverflow s) := by
  simp only [aluOp_eq, aluChecks_none h0 h1 h2 h3, chk_of_not_inWord hr, commit_raise]

/-- Settles O49: the checks are those of the ALU shape, and only the results of ADD and MUL can be no word. -/
theorem aluFaultsInOrder : Obligations.AluFaultsInOrder := by
  refine ⟨fun f hf p1 p2 p3 s c hc => ?checks, fun p1 p2 p3 s h0 h1 h2 h3 => ⟨?sum, ?product⟩⟩
  case checks =>
    obtain ⟨g, hg⟩ := exec_alu hf
    rw [hg, aluOp_faults hc]
  case sum => exact aluOp_overflows (g := (· + ·)) h0 h1 h2 h3
  case product => exact aluOp_overflows (g := (· * ·)) h0 h1 h2 h3

/-- The first failing check of the jump shape is the fault taken. -/
theorem jumpOp_faults {taken : Word → Bool} {p1 p2 : Param} {s : State} {c : Cause}
    (h : firstFault [rangeFault (s.pc + 3), readFault s.rb p1, readFault s.rb p2] = some c) :
    jumpOp none taken p1 p2 s = .next (takeFault c s) := by
  simp only [jumpOp_eq, h]

/-- A taken jump to a negative target. -/
theorem jumpOp_negative {taken : Word → Bool} {p1 p2 : Param} {s : State} (h0 : s.pc + 3 ≤ maxAddr)
    (h1 : Readable s.rb p1) (h2 : Readable s.rb p2) (ht : taken (readValue s p1) = true) (hn : (readValue s p2).toInt < 0) :
    jumpOp none taken p1 p2 s = .next (takeFault .invalidAddress s) := by
  simp only [jumpOp_eq, jumpChecks_none h0 h1 h2, ht, hn, and_self, if_true]

/-- Settles O50: the checks are those of the jump shape, and a taken jump then looks at its target. -/
theorem jumpFaultsInOrder : Obligations.JumpFaultsInOrder := by
  refine ⟨fun f hf p1 p2 s c hc => ?checks, fun p1 p2 s h0 h1 h2 hn => ⟨fun hc => ?jt, fun hc => ?jf⟩⟩
  case checks =>
    obtain ⟨taken, htaken⟩ := exec_jump hf
    rw [htaken, jumpOp_faults hc]
  case jt => exact jumpOp_negative h0 h1 h2 (condTrue_iff.mpr hc) hn
  case jf =>
    exact jumpOp_negative (taken := fun c => !condTrue c) h0 h1 h2 (by simp [condTrue_eq_false_iff.mpr hc]) hn

/-- A check that fails first fails first whatever checks follow. -/
theorem firstFault_append {l : List (Option Cause)} {c : Cause} (h : firstFault l = some c) (l' : List (Option Cause)) :
    firstFault (l ++ l') = some c := by
  induction l with
  | nil => cases h
  | cons o l ih =>
    cases o with
    | none => exact ih h
    | some d => exact h

/-- Settles O51: each instruction's checks, in the order its equation lists them; ARB has its sum as a last one, HLT only
that of its successor. -/
theorem shortInstructionFaultsInOrder : Obligations.ShortInstructionFaultsInOrder := by
  refine fun p s c => ⟨fun hc => ⟨?arb, ?out⟩, fun hc => ?inp, fun h0 h1 hsum => ?overflow, fun h0 => ?hlt⟩
  case arb =>
    have hc' := firstFault_append hc [rangeFault (s.rb.toInt + (readValue s p).toInt)]
    simp only [List.cons_append, List.nil_append] at hc'
    simp only [exec, execArb_eq, hc']
  case out => simp only [exec, execOut_eq, hc]
  case inp => simp only [exec, execInp_eq, hc]
  case overflow =>
    have hsucc : rangeFault ((s.pc : Int) + 2) = none := successorFault_none h0
    simp only [exec, execArb_eq, hsucc, readFault_eq_none.mpr h1, rangeFault_of_not_inWord hsum, firstFault]
  case hlt =>
    have hsucc : ¬ InWord ((s.pc : Int) + 1) := fun hw => by
      have := hw.2
      simp only [maxAddr, maxInt] at *
      omega
    simp only [exec, execHlt_eq, rangeFault_of_not_inWord hsucc]

/-- A list with a check that fails has a first one. -/
theorem exists_firstFault {l : List (Option Cause)} {c : Cause} (h : some c ∈ l) : ∃ c', firstFault l = some c' := by
  cases hl : firstFault l with
  | some c' => exact ⟨c', rfl⟩
  | none => cases firstFault_eq_none.mp hl _ h

theorem writeFault_of_immediate {rb : Word} {p : Param} (h : p.mode = .immediate) :
    writeFault rb p = some .invalidWriteMode := by simp only [writeFault, h]

/-- A parameter that may not be a destination is Immediate (20_memory.md R59). -/
theorem legalDest_eq_false {p : Param} : p.legalDest = false ↔ p.mode = .immediate := by
  obtain ⟨mode, lit⟩ := p
  cases mode <;> simp [Param.legalDest]

/-- The ALU shape with an Immediate destination faults at its write parameter or before it. -/
theorem aluOp_immediate_faults {p3 : Param} (h : p3.legalDest = false) (f : Int → Int → Except Stop Word) (p1 p2 : Param)
    (s : State) : ∃ c, aluOp none f p1 p2 p3 s = .next (takeFault c s) := by
  have hw := writeFault_of_immediate (rb := s.rb) (legalDest_eq_false.mp h)
  obtain ⟨c, hc⟩ := exists_firstFault (c := .invalidWriteMode)
    (l := [rangeFault (s.pc + 4), readFault s.rb p1, readFault s.rb p2, writeFault s.rb p3]) (by simp [hw])
  exact ⟨c, aluOp_faults hc⟩

/-- IN with an Immediate destination faults at its write parameter or before it. -/
theorem execInp_immediate_faults {p : Param} (h : p.legalDest = false) (s : State) :
    ∃ c, execInp p s = .next (takeFault c s) := by
  have hw := writeFault_of_immediate (rb := s.rb) (legalDest_eq_false.mp h)
  obtain ⟨c, hc⟩ := exists_firstFault (c := .invalidWriteMode) (l := [rangeFault (s.pc + 2), writeFault s.rb p]) (by simp [hw])
  exact ⟨c, by simp only [execInp_eq, hc]⟩

/-- An instruction that is not well-formed faults, whatever the state. -/
theorem exec_not_wellFormed {i : Instr} (h : i.wellFormed = false) (s : State) : ∃ c, exec i s = .next (takeFault c s) := by
  cases i with
  | add p1 p2 p3 => rw [exec_add]; exact aluOp_immediate_faults h _ p1 p2 s
  | mul p1 p2 p3 => rw [exec_mul]; exact aluOp_immediate_faults h _ p1 p2 s
  | lt p1 p2 p3 => rw [exec_lt]; exact aluOp_immediate_faults h _ p1 p2 s
  | eq p1 p2 p3 => rw [exec_eq]; exact aluOp_immediate_faults h _ p1 p2 s
  | inp p => exact execInp_immediate_faults h s
  | _ => cases h

/-- Settles O52: every instruction's word decodes (`decodeWord_wordNat`); with an Immediate destination the write check
fails, first where the checks before it pass. -/
theorem immediateDestinationAlwaysFaults : Obligations.ImmediateDestinationAlwaysFaults := by
  refine ⟨fun i _ => ⟨_, decodeWord_wordNat i⟩, fun i s h => exec_not_wellFormed h s,
    fun f hf p1 p2 p3 s hmode h0 h1 h2 => ?alu, fun p s hmode h0 => ?inp⟩
  case alu =>
    have hsucc : rangeFault ((s.pc : Int) + 4) = none := successorFault_none h0
    have hfirst : firstFault [rangeFault (s.pc + 4), readFault s.rb p1, readFault s.rb p2, writeFault s.rb p3] =
        some .invalidWriteMode := by
      rw [hsucc, readFault_eq_none.mpr h1, readFault_eq_none.mpr h2, writeFault_of_immediate hmode]
      rfl
    obtain ⟨g, hg⟩ := exec_alu hf
    rw [hg, aluOp_faults hfirst]
  case inp =>
    have hsucc : rangeFault ((s.pc : Int) + 2) = none := successorFault_none h0
    simp only [exec, execInp_eq, hsucc, writeFault_of_immediate hmode, firstFault]

/-! ### What an instruction leaves unchanged -/

/-- What no instruction touches: the host's lists; the memory only grows; the fault is kept unless the step raises. -/
theorem exec_frame {i : Instr} {s t : State} (h : exec i s = .next t) :
    t.pending = s.pending ∧ t.replies = s.replies ∧ s.mlen ≤ t.mlen ∧ (t.fault = s.fault ∨ ∃ c, t = takeFault c s) := by
  rcases exec_next h with ⟨c, rfl⟩ | he
  · exact ⟨rfl, rfl, le_refl _, .inr ⟨c, rfl⟩⟩
  · cases he with
    | store hi p hp hd r n hpc hn hn' => exact ⟨rfl, rfl, le_of_max_le_left hn, .inl rfl⟩
    | jump hi pc n hpc hn hn' => exact ⟨rfl, rfl, hn, .inl rfl⟩
    | arb p hi r n hpc hn hn' => exact ⟨rfl, rfl, hn, .inl rfl⟩
    | inp p hi hd n hpc hn hn' => exact ⟨rfl, rfl, hn, .inl rfl⟩
    | out p hi v n hpc hn hn' => exact ⟨rfl, rfl, hn, .inl rfl⟩
    | hlt hi n hpc hn hn' => exact ⟨rfl, rfl, hn, .inl rfl⟩

theorem exec_mlen_le {i : Instr} {s t : State} (h : exec i s = .next t) : s.mlen ≤ t.mlen := by
  obtain ⟨-, -, hmlen, -⟩ := exec_frame h
  exact hmlen

theorem exec_fault {i : Instr} {s t : State} (h : exec i s = .next t) : t.fault = s.fault ∨ ∃ c, t = takeFault c s := by
  obtain ⟨-, -, -, hfault⟩ := exec_frame h
  exact hfault

/-- An instruction that stores nothing leaves the memory equal. -/
theorem exec_mem {i : Instr} {s t : State} (hi : ¬ Stores i) (h : exec i s = .next t) : t.mem = s.mem := by
  rcases exec_next h with ⟨c, rfl⟩ | he
  · rfl
  · cases he with
    | store hi' => exact absurd hi' hi
    | _ => rfl

/-- No instruction but ARB changes the relative base. -/
theorem exec_rb {i : Instr} {s t : State} (hi : ∀ p, i ≠ .arb p) (h : exec i s = .next t) : t.rb = s.rb := by
  rcases exec_next h with ⟨c, rfl⟩ | he
  · rfl
  · cases he with
    | arb p hi' => exact absurd hi' (hi p)
    | _ => rfl

/-- `st` changes only to the variant of IN, OUT or HLT. -/
theorem exec_st {i : Instr} {s t : State} (h : exec i s = .next t) :
    t.st = s.st ∨ (∃ p d, i = .inp p ∧ t.st = .awaitingInput d ∧ d ≤ maxAddr) ∨ (∃ p v, i = .out p ∧ t.st = .hasOutput v) ∨
      (i = .hlt ∧ t.st = .terminated) := by
  rcases exec_next h with ⟨c, rfl⟩ | he
  · exact .inl rfl
  · cases he with
    | inp p hi hd => exact .inr (.inl ⟨p, _, hi, rfl, destAddr_le hd⟩)
    | out p hi v => exact .inr (.inr (.inl ⟨p, v, hi, rfl⟩))
    | hlt hi => exact .inr (.inr (.inr ⟨hi, rfl⟩))
    | _ => exact .inl rfl

/-- The address `WrParam` gives is the destination of a parameter that can be one. -/
theorem wrParam_eq_ok {p : Param} {s : State} {d : Nat} : wrParam p s = .ok d ↔ Writable s.rb p ∧ d = destAddr s.rb p := by
  rw [wrParam_eq, ← writeFault_eq_none]
  cases writeFault s.rb p <;> simp [eq_comm]

/-- An instruction that stores changes only the cell at the address `WrParam` gives, if it gives one. -/
theorem exec_read_of_stores {i : Instr} {p : Param} {s t : State} (hi : Stores i) (hp : i.writeParam = some p)
    (h : exec i s = .next t) {a : Nat} (ha : ∀ d, wrParam p s = .ok d → a ≠ d) : t.mem.read a = s.mem.read a := by
  rcases exec_next h with ⟨c, rfl⟩ | he
  · rfl
  · cases he with
    | store _ p' hp' hd =>
      obtain rfl : p = p' := Option.some.inj (hp.symm.trans hp')
      exact read_write_ne _ _ (ha _ (wrParam_eq_ok.mpr ⟨hd, rfl⟩))
    | jump hi' => rcases hi' with ⟨_, _, rfl⟩ | ⟨_, _, rfl⟩ <;> cases hi
    | arb _ hi' => subst hi'; cases hi
    | inp _ hi' => subst hi'; cases hi
    | out _ hi' => subst hi'; cases hi
    | hlt hi' => subst hi'; cases hi

/-- The frame of a storing instruction with its write parameter. -/
theorem stores_frame {i : Instr} {p3 : Param} {s t : State} (hi : Stores i) (hp : i.writeParam = some p3)
    (hrb : ∀ p, i ≠ .arb p) (h : exec i s = .next t) :
    t.rb = s.rb ∧ t.st = s.st ∧ t.pending = s.pending ∧ t.replies = s.replies ∧ s.mlen ≤ t.mlen ∧
      (t.fault = s.fault ∨ ∃ c, t = takeFault c s) ∧
      (∀ d, wrParam p3 s = .ok d → ∀ a, a ≠ d → t.mem.read a = s.mem.read a) ∧
      ((∀ d, wrParam p3 s ≠ .ok d) → ∀ a, t.mem.read a = s.mem.read a) := by
  obtain ⟨hpending, hreplies, hmlen, hfault⟩ := exec_frame h
  have hst : t.st = s.st := by
    rcases exec_st h with hst | ⟨p, d, rfl, -⟩ | ⟨p, v, rfl, -⟩ | ⟨rfl, -⟩
    · exact hst
    all_goals cases hi
  refine ⟨exec_rb hrb h, hst, hpending, hreplies, hmlen, hfault, fun d hd a ha => ?dest, fun hnone a => ?none⟩
  case dest =>
    exact exec_read_of_stores hi hp h fun d' hd' => by
      obtain rfl : d = d' := Except.ok.inj (hd.symm.trans hd')
      exact ha
  case none => exact exec_read_of_stores hi hp h fun d hd => absurd hd (hnone d)

/-- Settles O47: each of the four stores, with its third parameter as the destination. -/
theorem aluFrame : Obligations.AluFrame := by
  intro f hf p1 p2 p3 s t h
  simp only [List.mem_cons, List.not_mem_nil, or_false] at hf
  rcases hf with rfl | rfl | rfl | rfl <;> exact stores_frame (by trivial) rfl (fun _ => by simp) h

/-- Settles O48: one lemma for each field. -/
theorem nonStoringFrame : Obligations.NonStoringFrame := by
  intro i s t hi h
  refine ⟨fun a => by rw [exec_mem hi h], fun hrb => exec_rb hrb h, fun hinp hout hhlt => ?st, exec_frame h⟩
  case st =>
    rcases exec_st h with hst | ⟨p, -, hi', -⟩ | ⟨p, -, hi', -⟩ | ⟨hi', -⟩
    · exact hst
    · exact absurd hi' (hinp p)
    · exact absurd hi' (hout p)
    · exact absurd hi' hhlt

/-- Settles O23: `st` is kept or takes the variant of the instruction (`exec_st`). -/
theorem onlyInOutHltChangeSt : Obligations.OnlyInOutHltChangeSt := fun _ _ _ h hne => (exec_st h).resolve_left hne

/-- Settles O24: `exec_rb` for the instructions; of the transactions a resume and an acknowledge leave the base. -/
theorem onlyArbChangesRb : Obligations.OnlyArbChangesRb := by
  refine ⟨fun i s t h hne => ?instruction, fun tr s t r h hstep hne => ?transaction⟩
  case instruction =>
    by_contra hnone
    exact hne (exec_rb (fun p hp => hnone ⟨p, hp⟩) h)
  case transaction =>
    obtain ⟨t', r', ht', he⟩ := transact_cases tr s
    obtain ⟨rfl, rfl⟩ := Prod.mk.inj (Host.Outcome.next.inj (h.symm.trans ht'))
    cases he with
    | construct im => exact ⟨im, rfl⟩
    | stepOk => exact absurd rfl hstep
    | stepRaise => exact absurd rfl hstep
    | _ => exact absurd rfl hne

/-- Settles O26: growth in a cycle by its cases; an instruction that stores nothing by `exec_mem`. -/
theorem growthNeverShrinksOrWrites : Obligations.GrowthNeverShrinksOrWrites := by
  refine ⟨fun s t h => ?cycle, fun i s t hi h => ⟨exec_mem hi h, exec_mlen_le h⟩⟩
  case cycle =>
    rcases cycle_cases s with ⟨-, hs⟩ | ⟨-, ⟨c, hs⟩ | ⟨i, -, hs⟩⟩
    · rw [Host.Outcome.next.inj (h.symm.trans hs)]
    · rw [Host.Outcome.next.inj (h.symm.trans hs), takeFault_mlen]
    · exact exec_mlen_le (hs.symm.trans h)

/-! ### A step depends on `pc`, `rb` and the memory alone (45_host_operations.md R151) -/

/-- The states differ at most in the growth of the memory and in the host's lists. -/
def SameValues (s s' : State) : Prop :=
  s'.pc = s.pc ∧ s'.rb = s.rb ∧ s'.st = s.st ∧ s'.fault = s.fault ∧ s'.mem = s.mem

/-- Where the first outcome is a next state, so is the second, with the same values. -/
def SameOutcome (o o' : Host.Outcome State Fault Refusal) : Prop :=
  ∀ t, o = .next t → ∃ t', o' = .next t' ∧ SameValues t t'

theorem sameOutcome_next {t t' : State} (h : SameValues t t') : SameOutcome (.next t) (.next t') :=
  fun _ ht => ⟨t', rfl, Host.Outcome.next.inj ht ▸ h⟩

theorem sameOutcome_takeFault {s s' : State} (h : SameValues s s') (c : Cause) :
    SameOutcome (.next (takeFault c s)) (.next (takeFault c s')) := by
  obtain ⟨hpc, hrb, hst, -, hmem⟩ := h
  exact sameOutcome_next ⟨hpc, hrb, hst, rfl, hmem⟩

/-- The value of a parameter is one of the values that the states have in common. -/
theorem readValue_same {s s' : State} (h : SameValues s s') (p : Param) : readValue s' p = readValue s p := by
  obtain ⟨-, hrb, -, -, hmem⟩ := h
  simp only [readValue, hrb, hmem]

theorem sameOutcome_aluOp {s s' : State} (h : SameValues s s') (f : Int → Int → Except Stop Word) (p1 p2 p3 : Param) :
    SameOutcome (aluOp none f p1 p2 p3 s) (aluOp none f p1 p2 p3 s') := by
  have hvalue := readValue_same h
  obtain ⟨hpc, hrb, hst, hfault, hmem⟩ := id h
  rw [aluOp_eq, aluOp_eq]
  simp only [hvalue, hpc, hrb]
  split
  · exact sameOutcome_takeFault h _
  · split
    · rename_i e he
      cases e with
      | raise c => exact sameOutcome_takeFault h c
      | stuck f => exact fun t ht => by cases ht
    · exact sameOutcome_next ⟨rfl, rfl, hst, hfault, by rw [hmem]⟩

theorem sameOutcome_jumpOp {s s' : State} (h : SameValues s s') (taken : Word → Bool) (p1 p2 : Param) :
    SameOutcome (jumpOp none taken p1 p2 s) (jumpOp none taken p1 p2 s') := by
  have hvalue := readValue_same h
  obtain ⟨hpc, hrb, hst, hfault, hmem⟩ := id h
  rw [jumpOp_eq, jumpOp_eq]
  simp only [hvalue, hpc, hrb]
  split
  · exact sameOutcome_takeFault h _
  · split
    · exact sameOutcome_takeFault h _
    · exact sameOutcome_next ⟨rfl, rfl, hst, hfault, hmem⟩

theorem sameOutcome_exec {s s' : State} (h : SameValues s s') (i : Instr) : SameOutcome (exec i s) (exec i s') := by
  have hvalue := readValue_same h
  obtain ⟨hpc, hrb, hst, hfault, hmem⟩ := id h
  cases i with
  | add p1 p2 p3 => simp only [exec_add]; exact sameOutcome_aluOp h _ p1 p2 p3
  | mul p1 p2 p3 => simp only [exec_mul]; exact sameOutcome_aluOp h _ p1 p2 p3
  | lt p1 p2 p3 => simp only [exec_lt]; exact sameOutcome_aluOp h _ p1 p2 p3
  | eq p1 p2 p3 => simp only [exec_eq]; exact sameOutcome_aluOp h _ p1 p2 p3
  | jt p1 p2 => simp only [exec_jt]; exact sameOutcome_jumpOp h _ p1 p2
  | jf p1 p2 => simp only [exec_jf]; exact sameOutcome_jumpOp h _ p1 p2
  | arb p =>
    simp only [exec, execArb_eq, hvalue, hpc, hrb]
    split
    · exact sameOutcome_takeFault h _
    · exact sameOutcome_next ⟨rfl, rfl, hst, hfault, hmem⟩
  | out p =>
    simp only [exec, execOut_eq, hvalue, hpc, hrb]
    split
    · exact sameOutcome_takeFault h _
    · exact sameOutcome_next ⟨rfl, rfl, rfl, hfault, hmem⟩
  | inp p =>
    simp only [exec, execInp_eq, hpc, hrb]
    split
    · exact sameOutcome_takeFault h _
    · exact sameOutcome_next ⟨rfl, rfl, rfl, hfault, hmem⟩
  | hlt =>
    simp only [exec, execHlt_eq, hpc]
    split
    · exact sameOutcome_takeFault h _
    · exact sameOutcome_next ⟨rfl, hrb, rfl, hfault, hmem⟩

/-- The cells a step decodes are values the states have in common. -/
theorem fetchCells_same {s s' : State} (h : SameValues s s') : fetchCells s' = fetchCells s := by
  obtain ⟨hpc, -, -, -, hmem⟩ := h
  simp only [fetchCells, hpc, hmem]

/-- Settles O25: two instances that can step decode the same cells and run the same instruction (`sameOutcome_exec`). -/
theorem stepDependsOnPcRbMemOnly : Obligations.StepDependsOnPcRbMemOnly := by
  intro s s' t hc hc' hpc hrb hmem ht
  obtain ⟨hf, hrun⟩ := canStep_iff.mp hc
  obtain ⟨hf', hrun'⟩ := canStep_iff.mp hc'
  have hsame : SameValues s s' := ⟨hpc, hrb, hrun'.trans hrun.symm, hf'.trans hf.symm, hmem⟩
  have houtcome : SameOutcome (cycle s) (cycle s') := by
    cases hd : decode (fetchCells s) with
    | error r =>
      rw [cycle_of_reject hc hd, cycle_of_reject hc' ((fetchCells_same hsame).symm ▸ hd)]
      exact sameOutcome_takeFault hsame _
    | ok i =>
      rw [cycle_of_decode hc hd, cycle_of_decode hc' ((fetchCells_same hsame).symm ▸ hd)]
      exact sameOutcome_exec hsame i
  exact houtcome t ht

end Sys2Proof.Machine

namespace Sys2Proof.Machine

/-! ### The step where the host has nothing to issue (45_host_operations.md R151, R156, R157) -/

theorem step_of_pending_nil {s : State} (hp : s.pending = []) : step s = cycle s := by rw [step_eq, hp]

theorem canStep_eq_false {s : State} (h : s.fault ≠ none ∨ s.st ≠ .running) : s.canStep = false := by
  rw [← Bool.not_eq_true, canStep_iff]
  tauto

/-- Settles O18: with nothing to issue the step is the cycle, which does nothing where no step is admitted. -/
theorem stoppedOrWaitingInstanceStays : Obligations.StoppedOrWaitingInstanceStays := by
  intro s hp hstop
  simp only [step_of_pending_nil hp, cycle_eq, canStep_eq_false hstop, Bool.false_eq_true, if_false]

/-- Settles O15: the head of `pending` is not issued, so the step is the cycle, which runs what the four cells decode to. -/
theorem stepRunsTheDecodedInstruction : Obligations.StepRunsTheDecodedInstruction := by
  intro s i hf hrun hpending hd
  have hc : s.canStep = true := canStep_iff.mpr ⟨hf, hrun⟩
  rcases step_cases s with ⟨-, hs⟩ | ⟨t, ts, hp, hadmitted, -⟩
  · exact hs.trans (cycle_of_decode hc hd)
  · simp [hpending t ts hp, hc] at hadmitted

/-- A cell that is no instruction word is rejected whatever the cells after it. -/
theorem decode_fetchCells_of_reject {s : State} {r : Reject} (h : decodeWord (s.mem.read s.pc) = .error r) :
    decode (fetchCells s) = .error r := by
  have hword : (fetchCells s).getD 0 0 = s.mem.read s.pc := rfl
  simp only [decode, hword, h]

/-- A step that fetches no instruction word takes the fault of its rejection. -/
theorem step_of_reject {s : State} {r : Reject} (hc : s.canStep = true) (hp : s.pending = [])
    (h : decodeWord (s.mem.read s.pc) = .error r) : step s = .next (takeFault (rejectCause r) s) := by
  rw [step_of_pending_nil hp, cycle_of_reject hc (decode_fetchCells_of_reject h)]

/-- Nothing retries or recovers a step that raised. -/
theorem step_takeFault {s : State} (hp : s.pending = []) (c : Cause) : step (takeFault c s) = .next (takeFault c s) :=
  stoppedOrWaitingInstanceStays (takeFault c s) hp (.inl (by simp))

/-! ### Words that are no instruction (30_encoding.md R88 to R91) -/

/-- The ninety values of two digits that are no opcode. -/
theorem undefined_iff {n : Nat} (hn : n < 100) : (∀ op : Opcode, op.code ≠ n) ↔ n = 0 ∨ (10 ≤ n ∧ n ≤ 98) := by
  have htable : ∀ n < 100, Opcode.ofCode n = none ↔ n = 0 ∨ (10 ≤ n ∧ n ≤ 98) := by decide
  rw [← ofCode_eq_none]
  exact htable n hn

/-- Settles O5: the undefined values are counted; their words are rejected, and a step that fetches one faults for good. -/
theorem undefinedOpcodesAreFatal : Obligations.UndefinedOpcodesAreFatal := by
  have hreject : ∀ w : Word, 0 ≤ w.toInt → (w.toNat % 100 = 0 ∨ (10 ≤ w.toNat % 100 ∧ w.toNat % 100 ≤ 98)) →
      decodeWord w = .error .invalidOpcode := fun w h0 hw =>
    decodeWord_of_undefined h0 ((undefined_iff (Nat.mod_lt _ (by decide))).mpr hw)
  refine ⟨fun n hn => undefined_iff hn, by decide, fun w h0 hw => ⟨hreject w h0 hw, fun s hc hp hfetch => ⟨?step, ?stays⟩⟩,
    fun s hc hp hfetch => ?zero⟩
  case step => exact step_of_reject hc hp (hfetch ▸ hreject w h0 hw)
  case stays => exact step_takeFault hp _
  case zero => exact step_of_reject hc hp (hfetch ▸ hreject 0 (by decide) (.inl (by decide)))

/-- Settles O6: a bad digit is rejected (`decodeWord_of_bad_digit`), and a step that fetches the word faults for good. -/
theorem illegalModeDigitsAreFatal : Obligations.IllegalModeDigitsAreFatal := by
  intro w op i h0 ho h1 hi hd
  have hreject : decodeWord w = .error .invalidMode := decodeWord_of_bad_digit h0 ho h1 hi hd
  exact ⟨hreject, fun s hc hp hfetch => ⟨step_of_reject (r := .invalidMode) hc hp (hfetch ▸ hreject), step_takeFault hp _⟩⟩

/-- Settles O7: both kinds of word are rejected, and the step that fetches one takes the fault of the rejection. -/
theorem negativeAndOverlongWordsFault : Obligations.NegativeAndOverlongWordsFault := fun _ _ hc hp hfetch =>
  ⟨fun hneg => step_of_reject (r := .invalidOpcode) hc hp (hfetch ▸ decodeWord_of_neg hneg),
    fun h0 _ ho hlong => step_of_reject (r := .invalidMode) hc hp (hfetch ▸ decodeWord_of_overlong h0 ho hlong)⟩

/-! ### The step and the host's transactions -/

/-- Every instruction answers a next state. -/
theorem exists_exec (i : Instr) (s : State) : ∃ t, exec i s = .next t := by
  rcases exec_cases i s with ⟨c, he⟩ | ⟨t, he, -⟩
  · exact ⟨_, he⟩
  · exact ⟨t, he⟩

/-- Every cycle answers a next state. -/
theorem exists_cycle (s : State) : ∃ t, cycle s = .next t := by
  rcases cycle_cases s with ⟨-, hs⟩ | ⟨-, ⟨c, hs⟩ | ⟨i, -, hs⟩⟩
  · exact ⟨_, hs⟩
  · exact ⟨_, hs⟩
  · obtain ⟨t, he⟩ := exists_exec i s
    exact ⟨t, hs.trans he⟩

/-- Settles O19: a step is a cycle (`exists_cycle`) or a transaction that is issued (`issue_cases`), and both answer, as every
instruction does. -/
theorem everyStepAnswersANextState : Obligations.EveryStepAnswersANextState := by
  refine ⟨fun s => ?step, exists_exec⟩
  case step =>
    rcases step_cases s with ⟨-, hs⟩ | ⟨tr, ts, -, -, hs⟩
    · obtain ⟨t, ht⟩ := exists_cycle s
      exact ⟨t, hs.trans ht⟩
    · obtain ⟨t, r, -, -, hissue⟩ := issue_cases tr { s with pending := ts }
      exact ⟨_, hs.trans hissue⟩

/-- An admitted `step` transaction whose cycle leaves no fault answers Ok. -/
theorem transact_step_ok {s t : State} (hc : s.canStep = true) (h : cycle s = .next t) (hf : t.fault = none) :
    transact .step s = .next (t, .ok) := by
  simp only [transact_step, hc, h, hf, if_true]

/-- An admitted `step` transaction whose cycle leaves a fault answers its cause. -/
theorem transact_step_cause {s t : State} {c : Cause} (hc : s.canStep = true) (h : cycle s = .next t)
    (hf : t.fault = some c) : transact .step s = .next (t, .cause c) := by
  simp only [transact_step, hc, h, hf, if_true]

/-- Settles O16: the reply to the cycle's next state (`transact_step_ok`, `transact_step_cause`), and what the cycle is where
the cells decode and where they do not. -/
theorem stepTransactionRunsTheInstruction : Obligations.StepTransactionRunsTheInstruction := by
  intro s hf hrun
  have hc : s.canStep = true := canStep_iff.mpr ⟨hf, hrun⟩
  refine ⟨hc, fun t h => transact_step_ok hc h, fun t c h => transact_step_cause hc h,
    fun i t hd he => ?decodes, fun r hr => ?rejected⟩
  case decodes =>
    have hcycle : cycle s = .next t := (cycle_of_decode hc hd).trans he
    exact ⟨transact_step_ok hc hcycle, fun c => transact_step_cause hc hcycle⟩
  case rejected => exact transact_step_cause hc (cycle_of_reject hc (decode_fetchCells_of_reject hr)) rfl

/-- No instruction touches the host's queue. -/
theorem cycle_pending {s t : State} (h : cycle s = .next t) : t.pending = s.pending := by
  rcases cycle_next h with ⟨-, rfl⟩ | ⟨-, ⟨c, rfl⟩ | ⟨i, he⟩⟩
  · rfl
  · rfl
  · cases he <;> rfl

/-- No transaction touches the host's queue. -/
theorem transactEffect_pending {tr : Transaction} {s t : State} {r : Reply} (h : TransactEffect s tr t r) :
    t.pending = s.pending := by
  cases h with
  | stepOk _ hc hs hf => exact cycle_pending hs
  | stepRaise _ c hc hs hf => exact cycle_pending hs
  | _ => rfl

/-- Settles O17: such a transaction is issued (`step_eq`), and what it answers is `issue_cases`. -/
theorem stepIssuesTheHostsTransaction : Obligations.StepIssuesTheHostsTransaction := by
  intro s tr ts hp hissued
  obtain ⟨t, r, he, ht, hissue⟩ := issue_cases tr { s with pending := ts }
  refine ⟨t, r, ht, ?step, transactEffect_pending he⟩
  case step =>
    have hturn : (tr.admitted s || !s.canStep) = true := by
      rcases hissued with h | h <;> simp [h]
    simp only [step_eq, hp, hturn, if_true, hissue]

/-- A cycle keeps the fault unless it raises, and then it only records the cause. -/
theorem cycle_fault {s t : State} (h : cycle s = .next t) : t.fault = s.fault ∨ ∃ c, t = takeFault c s := by
  rcases cycle_cases s with ⟨-, hs⟩ | ⟨-, ⟨c, hs⟩ | ⟨i, -, hs⟩⟩
  · exact .inl (Host.Outcome.next.inj (h.symm.trans hs) ▸ rfl)
  · exact .inr ⟨c, Host.Outcome.next.inj (h.symm.trans hs)⟩
  · exact exec_fault (hs.symm.trans h)

/-- Settles O20: a cycle or an instruction that leaves a fault it did not find took it (`cycle_fault`, `exec_fault`). -/
theorem raisingStepChangesOnlyFault : Obligations.RaisingStepChangesOnlyFault := by
  refine ⟨fun s t c hf h hc => ?cycle, fun i s t h => exec_fault h, fun _ _ => rfl⟩
  case cycle =>
    rcases cycle_fault h with hsame | ⟨c', rfl⟩
    · rw [hsame, hf] at hc
      cases hc
    · obtain rfl : c' = c := Option.some.inj hc
      rfl

/-- A transaction but `construct` does nothing to a machine that is not waiting for it and cannot step. -/
theorem transactEffect_of_stopped {tr : Transaction} {s t : State} {r : Reply} (h : TransactEffect s tr t r)
    (hc : s.canStep = false) (hresume : ∀ d, s.fault = none → s.st ≠ .awaitingInput d)
    (hack : ∀ v, s.fault = none → s.st ≠ .hasOutput v) (hconstruct : ∀ im, tr ≠ .construct im) : t = s := by
  cases h with
  | nothing => rfl
  | construct im => exact absurd rfl (hconstruct im)
  | stepOk _ hc' => rw [hc] at hc'; cases hc'
  | stepRaise _ _ hc' => rw [hc] at hc'; cases hc'
  | resume x d hf hs => exact absurd hs (hresume d hf)
  | acknowledge v hf hs => exact absurd hs (hack v hf)

/-- The machine itself: the state without the host's lists. -/
def SameInstance (s t : State) : Prop :=
  t.fault = s.fault ∧ t.pc = s.pc ∧ t.rb = s.rb ∧ t.st = s.st ∧ t.mem = s.mem ∧ t.mlen = s.mlen

/-- A step leaves a machine as it is that is stopped for good: it cannot step, nothing is awaited from the host, and the
host does not construct another. -/
theorem step_of_stopped {s t : State} (h : step s = .next t) (hc : s.canStep = false)
    (hresume : ∀ d, s.fault = none → s.st ≠ .awaitingInput d) (hack : ∀ v, s.fault = none → s.st ≠ .hasOutput v)
    (hconstruct : ∀ im ts, s.pending ≠ .construct im :: ts) : SameInstance s t := by
  rcases step_next h with hs | ⟨tr, ts, u, r, hp, he, rfl⟩
  · rcases cycle_next hs with ⟨-, rfl⟩ | ⟨hc', -⟩
    · exact ⟨rfl, rfl, rfl, rfl, rfl, rfl⟩
    · rw [hc] at hc'
      cases hc'
  · obtain rfl := transactEffect_of_stopped he hc hresume hack fun im htr => hconstruct im ts (by rw [hp, htr])
    exact ⟨rfl, rfl, rfl, rfl, rfl, rfl⟩

/-- Settles O21: a faulted machine is stopped for good. -/
theorem faultIsSticky : Obligations.FaultIsSticky := by
  intro s t c hf hconstruct h
  have hne : s.fault ≠ none := by simp [hf]
  obtain ⟨hfault, hrest⟩ := step_of_stopped h (canStep_eq_false (.inl hne)) (fun _ h0 => absurd h0 hne)
    (fun _ h0 => absurd h0 hne) hconstruct
  exact ⟨hfault.trans hf, hrest⟩

/-- Settles O22: a terminated machine is stopped for good. -/
theorem nothingLeavesTerminated : Obligations.NothingLeavesTerminated := by
  intro s t hst hconstruct h
  obtain ⟨hfault, hpc, hrb, hst', hmem, hmlen⟩ := step_of_stopped h (canStep_eq_false (.inr (by simp [hst])))
    (fun _ _ => by simp [hst]) (fun _ _ => by simp [hst]) hconstruct
  exact ⟨hst'.trans hst, hfault, hpc, hrb, hmem, hmlen⟩

/-- Settles O55: the view is of the state, and its cells are the reads below `mlen` in order. -/
theorem inspectChangesNothing : Obligations.InspectChangesNothing := fun s =>
  ⟨s.view, transact_inspect s, rfl, rfl, rfl, by simp [State.view], fun a ha => by simp [State.view, ha]⟩

/-- A transaction that is not admitted reports the recorded cause (R157), or misuse where there is none (R156). -/
theorem notAdmitted_of_fault {s : State} {c : Cause} (hf : s.fault = some c) : notAdmitted s = .cause c := by
  simp only [notAdmitted, hf]

theorem notAdmitted_of_no_fault {s : State} (hf : s.fault = none) : notAdmitted s = .misuse := by
  simp only [notAdmitted, hf]

theorem transact_step_not_admitted {s : State} (h : s.fault ≠ none ∨ s.st ≠ .running) :
    transact .step s = .next (s, notAdmitted s) := by
  simp only [transact_step, canStep_eq_false h, Bool.false_eq_true, if_false]

theorem transact_resume_not_admitted {s : State} (h : s.fault ≠ none ∨ ∀ d, s.st ≠ .awaitingInput d) (x : Int) :
    transact (.resumeWithInput x) s = .next (s, notAdmitted s) := by
  rw [transact_resume]
  split
  · rename_i d hf hs
    exact absurd hs (h.resolve_left (not_not.mpr hf) d)
  · rfl

theorem transact_acknowledge_not_admitted {s : State} (h : s.fault ≠ none ∨ ∀ v, s.st ≠ .hasOutput v) :
    transact .acknowledgeOutput s = .next (s, notAdmitted s) := by
  rw [transact_acknowledge]
  split
  · rename_i v hf hs
    exact absurd hs (h.resolve_left (not_not.mpr hf) v)
  · rfl

/-- Settles O56: each of the three transactions answers `notAdmitted` where it is not admitted, which is the recorded cause or
Misuse. -/
theorem transactionNotAdmittedChangesNothing : Obligations.TransactionNotAdmittedChangesNothing := by
  refine ⟨fun s hf hst => ?step, fun s x hf hst => ?resume, fun s hf hst => ?acknowledge, fun s c x hf => ?faulted⟩
  case step => rw [transact_step_not_admitted (.inr hst), notAdmitted_of_no_fault hf]
  case resume => rw [transact_resume_not_admitted (.inr hst), notAdmitted_of_no_fault hf]
  case acknowledge => rw [transact_acknowledge_not_admitted (.inr hst), notAdmitted_of_no_fault hf]
  case faulted =>
    have hne : s.fault ≠ none := by simp [hf]
    rw [← notAdmitted_of_fault hf]
    exact ⟨transact_step_not_admitted (.inl hne), transact_resume_not_admitted (.inl hne) x,
      transact_acknowledge_not_admitted (.inl hne)⟩

/-- Settles O57: a sequence with a value that is no word is no image. -/
theorem constructRefusesWhatIsNoImage : Obligations.ConstructRefusesWhatIsNoImage := by
  rintro image s ⟨v, hv, hw⟩
  have himage : ¬ isImage image = true := fun hi => hw ((isImage_iff.mp hi).2 v hv)
  rw [transact_construct, if_neg himage]

/-- The resume of a machine that waits, with a word. -/
theorem transact_resume_of_awaiting {s : State} {d : Nat} {x : Int} (hf : s.fault = none) (hs : s.st = .awaitingInput d)
    (hx : InWord x) : transact (.resumeWithInput x) s =
      .next ({ s with mem := s.mem.write d (Word.ofInt x), mlen := max s.mlen (d + 1), st := .running }, .ok) := by
  simp only [transact_resume, hf, hs, if_pos (fits_iff.mpr hx), State.grow]

/-- Settles O53: the resume writes the recorded cell (`transact_resume_of_awaiting`); a value that is no word is refused. -/
theorem resumeWritesTheRecordedCell : Obligations.ResumeWritesTheRecordedCell := by
  refine fun s d x hf hs => ⟨fun hx => ⟨_, transact_resume_of_awaiting hf hs hx, ?value, fun a ha => read_write_ne _ _ ha,
    rfl, rfl, rfl, rfl, hf, rfl, rfl⟩, fun hx => ?refused⟩
  case value => rw [read_write_same, toInt_ofInt hx]
  case refused => simp only [transact_resume, hf, hs, if_neg (mt fits_iff.mp hx)]

/-- Settles O58: the IN records the destination (`inCompletes`), and the resume writes it. -/
theorem suspendThenResume : Obligations.SuspendThenResume := fun p s _ hf h0 hw hx =>
  ⟨_, _, inCompletes p s h0 hw, rfl, transact_resume_of_awaiting hf rfl hx, rfl, rfl, rfl, rfl⟩

/-! ### What the next step fetches (20_memory.md R67, 41_jumps.md R124) -/

/-- The cells a step decodes are those from `pc` on. -/
theorem fetchCells_getElem? {s : State} {k : Nat} (hk : k < 4) : (fetchCells s)[k]? = some (s.mem.read (s.pc + k)) := by
  interval_cases k <;> rfl

/-- A word that the ALU shape stores in a cell of the next instruction is fetched as stored. -/
theorem aluOp_store_fetched {f : Int → Int → Except Stop Word} {p1 p2 p3 : Param} {s : State} {k : Nat} {r : Word}
    (hk : k < 4) (h0 : s.pc + 4 ≤ maxAddr) (h1 : Readable s.rb p1) (h2 : Readable s.rb p2) (h3 : Writable s.rb p3)
    (hd : destAddr s.rb p3 = s.pc + 4 + k) (hr : f (readValue s p1).toInt (readValue s p2).toInt = .ok r) :
    ∃ t, aluOp none f p1 p2 p3 s = .next t ∧ t.pc = s.pc + 4 ∧ (fetchCells t)[k]? = some r := by
  refine ⟨_, aluOp_completes h0 h1 h2 h3 hr, rfl, ?_⟩
  rw [fetchCells_getElem? hk, ← hd, read_write_same]

/-- Settles O28: the store of the ALU shape is fetched (`aluOp_store_fetched`), with the result of each instruction. -/
theorem nextFetchSeesTheStore : Obligations.NextFetchSeesTheStore := by
  intro p1 p2 p3 s k hk h0 h1 h2 h3 hd
  refine ⟨fun hsum => ?add, fun hprod => ?mul, ?lt, ?eq⟩
  case add =>
    obtain ⟨t, ht, hpc, hcell⟩ := aluOp_store_fetched hk h0 h1 h2 h3 hd (f := fun a b => chk (a + b)) (chk_of_inWord hsum)
    exact ⟨t, _, ht, hpc, hcell, toInt_ofInt hsum⟩
  case mul =>
    obtain ⟨t, ht, hpc, hcell⟩ := aluOp_store_fetched hk h0 h1 h2 h3 hd (f := fun a b => chk (a * b)) (chk_of_inWord hprod)
    exact ⟨t, _, ht, hpc, hcell, toInt_ofInt hprod⟩
  case lt =>
    simp only [exec_lt, ← truthWord_decide]
    exact aluOp_store_fetched hk h0 h1 h2 h3 hd rfl
  case eq =>
    simp only [exec_eq, ← truthWord_decide]
    exact aluOp_store_fetched hk h0 h1 h2 h3 hd rfl

/-- A stored sequence is read back, whatever the memory was. -/
theorem read_store_of_lt (m : Memory) {vs : List Word} {k : Nat} (hk : k < vs.length) (a : Nat) :
    (m.store a vs).read (a + k) = vs[k] := by
  induction vs generalizing m a k with
  | nil => cases hk
  | cons v vs ih =>
    cases k with
    | zero => simp [Memory.store, read_store_below]
    | succ k =>
      rw [Memory.store, ← Nat.add_assoc, Nat.add_right_comm]
      exact ih _ (Nat.lt_of_succ_lt_succ hk) (a + 1)

/-- The cells that `withFetchWord` places are those the next step decodes. -/
theorem fetchCells_withFetchWord (s : State) (nbits w : Nat) :
    fetchCells (s.withFetchWord nbits w) = tableCells nbits w := by
  refine List.ext_getElem rfl fun k h1 h2 => ?_
  have hcell := fetchCells_getElem? (s := s.withFetchWord nbits w) (k := k) h1
  rw [List.getElem?_eq_getElem h1] at hcell
  exact (Option.some.inj hcell).trans (read_store_of_lt s.mem h2 s.pc)

/-- Settles O29: the placed state can step, nothing is pending, and its cells decode to the instruction. -/
theorem placedInstructionRunsNext : Obligations.PlacedInstructionRunsNext := by
  intro s nbits w i h
  have hd : decode (fetchCells (s.withFetchWord nbits w)) = .ok i := by
    rw [fetchCells_withFetchWord]
    rw [decodeTableWord] at h
    cases hd : decode (tableCells nbits w) with
    | error r => simp [hd] at h
    | ok j => simpa [hd] using h
  exact (step_of_pending_nil rfl).trans (cycle_of_decode rfl hd)

/-- A JT or JF that jumps, to its own address: the memory reaches past what it reads, and nothing else changes. -/
theorem exec_self_jump {s : State} {i : Instr} {p1 p2 : Param} (h0 : s.pc + 3 ≤ maxAddr)
    (hi : i = .jt p1 p2 ∧ readValue s p1 ≠ 0 ∨ i = .jf p1 p2 ∧ readValue s p1 = 0) (h1 : Readable s.rb p1)
    (h2 : Readable s.rb p2) (ht : (readValue s p2).toInt = s.pc) :
    exec i s = .next { s with mlen := max (max s.mlen (s.pc + 3)) (max (readReach s.rb p1) (readReach s.rb p2)) } := by
  have hn : 0 ≤ (readValue s p2).toInt := ht ▸ Int.natCast_nonneg _
  have hpc : (readValue s p2).toInt.toNat = s.pc := by rw [ht, Int.toNat_natCast]
  rcases hi with ⟨rfl, hc⟩ | ⟨rfl, hc⟩
  · rw [(jtCompletes p1 p2 s h0 h1 h2).1 hc hn, hpc]
  · rw [(jfCompletes p1 p2 s h0 h1 h2).1 hc hn, hpc]

/-- Settles O27: the first step is `exec_self_jump`; the state after it meets the same hypotheses and has grown already. -/
theorem jumpToItselfSpins : Obligations.JumpToItselfSpins := by
  intro s i p1 p2 hc hp h0 hd hi h1 h2 ht
  have hrun : ∀ n, step { s with mlen := n } =
      .next { s with mlen := max (max n (s.pc + 3)) (max (readReach s.rb p1) (readReach s.rb p2)) } := fun n => by
    rw [step_of_pending_nil (s := { s with mlen := n }) hp, cycle_of_decode (s := { s with mlen := n }) hc hd,
      exec_self_jump (s := { s with mlen := n }) h0 hi h1 h2 ht]
  refine ⟨_, hrun s.mlen, ?again, rfl⟩
  case again =>
    rw [hrun]
    congr 2
    omega

/-! ### The run helper (45_host_operations.md R158, 70_reset_and_hazards.md R208) -/

theorem ofInt_toInt (x : Word) : Word.ofInt x.toInt = x := BitVec.ofInt_toInt

/-- A turn in HasOutput: the value is taken and acknowledged. -/
theorem runHelper_hasOutput {fuel : Nat} {inputs outs : List Word} {s : State} {v : Word} (hf : s.fault = none)
    (hs : s.st = .hasOutput v) :
    runHelper (fuel + 1) inputs outs s = runHelper fuel inputs (outs ++ [v]) { s with st := .running } := by
  simp only [runHelper_succ, hs, advance_of_transact (transact_acknowledge_of_hasOutput hf hs)]

/-- A turn in AwaitingInput: the first input left is written. -/
theorem runHelper_awaiting {fuel : Nat} {x : Word} {xs outs : List Word} {s : State} {d : Nat} (hf : s.fault = none)
    (hs : s.st = .awaitingInput d) :
    runHelper (fuel + 1) (x :: xs) outs s =
      runHelper fuel xs outs { s with st := .running, mem := s.mem.write d x, mlen := max s.mlen (d + 1) } := by
  simp only [runHelper_succ, hs, transact_resume_of_awaiting hf hs (inWord_toInt x), ofInt_toInt]

/-- A turn in AwaitingInput with no input left. -/
theorem runHelper_exhausted {fuel : Nat} {outs : List Word} {s : State} {d : Nat} (hs : s.st = .awaitingInput d) :
    runHelper (fuel + 1) [] outs s = (.inputExhausted, s) := by
  simp only [runHelper_succ, hs]

/-- A turn in Terminated. -/
theorem runHelper_terminated {fuel : Nat} {inputs outs : List Word} {s : State} (hs : s.st = .terminated) :
    runHelper (fuel + 1) inputs outs s = (.ok outs, s) := by
  simp only [runHelper_succ, hs]

/-- A turn in Running: the run goes on after a step, or ends with the cause of a faulted machine. -/
theorem runHelper_running {s : State} (hs : s.st = .running) (fuel : Nat) (inputs outs : List Word) :
    ∃ t r, TransactEffect s .step t r ∧
      ((∃ c, r = .cause c ∧ runHelper (fuel + 1) inputs outs s = (.error c, t)) ∨
        runHelper (fuel + 1) inputs outs s = runHelper fuel inputs outs t) := by
  obtain ⟨t, r, ht, he⟩ := transact_cases .step s
  refine ⟨t, r, he, ?_⟩
  simp only [runHelper_succ, hs, ht]
  cases r with
  | cause c => exact .inl ⟨c, rfl, rfl⟩
  | _ => exact .inr rfl

/-- How a run leaves the machine: what the statement says of every end. -/
def GoodEnd (outs : List Word) (x : RunEnd × State) : Prop :=
  x.2.Inv ∧ (∀ r, x.1 = .ok r → x.2.Final ∧ outs <+: r) ∧ (∀ c, x.1 = .error c → x.2.fault = some c ∧ x.2.st = .running) ∧
    (x.1 = .inputExhausted → x.2.fault = none ∧ ∃ d, x.2.st = .awaitingInput d) ∧ ∀ f, x.1 ≠ .stuck f

/-- A good end is one for fewer outputs so far. -/
theorem goodEnd_of_prefix {outs outs' : List Word} {x : RunEnd × State} (h : GoodEnd outs' x) (hp : outs <+: outs') :
    GoodEnd outs x := by
  obtain ⟨hinv, hok, hrest⟩ := h
  exact ⟨hinv, fun r hr => ⟨(hok r hr).1, hp.trans (hok r hr).2⟩, hrest⟩

/-- A machine that does not run has no fault. -/
theorem fault_none_of_inv {s : State} (h : s.Inv) (hs : s.st ≠ .running) : s.fault = none := by
  by_contra hf
  exact hs (h.fault_running hf)

/-- A step transaction that returns a cause leaves it recorded. -/
theorem transactEffect_cause {tr : Transaction} {s t : State} {c : Cause} (h : TransactEffect s tr t (.cause c)) :
    t.fault = some c := by
  cases h with
  | nothing _ _ hr => exact hr c rfl
  | stepRaise _ _ hc hs hf => exact hf

/-- Every run that starts in the invariant has a good end, by induction on the fuel. -/
theorem goodEnd_runHelper (fuel : Nat) (inputs outs : List Word) (s : State) (h : s.Inv) :
    GoodEnd outs (runHelper fuel inputs outs s) := by
  induction fuel generalizing inputs outs s with
  | zero => exact ⟨h, by simp [runHelper_zero]⟩
  | succ fuel ih =>
    cases hs : s.st with
    | running =>
      obtain ⟨t, r, he, ⟨c, rfl, hend⟩ | hgo⟩ := runHelper_running hs fuel inputs outs
      · have hinv : t.Inv := inv_transactEffect h he
        have hf : t.fault = some c := transactEffect_cause he
        have hrun : t.st = .running := hinv.fault_running (by simp [hf])
        rw [hend]
        exact ⟨hinv, by simp [hf, hrun]⟩
      · rw [hgo]
        exact ih inputs outs t (inv_transactEffect h he)
    | awaitingInput d =>
      have hf : s.fault = none := fault_none_of_inv h (by simp [hs])
      cases inputs with
      | nil =>
        rw [runHelper_exhausted hs]
        exact ⟨h, by simp [hf, hs]⟩
      | cons x xs =>
        rw [runHelper_awaiting hf hs]
        have he := TransactEffect.resume x.toInt d hf hs (inWord_toInt x)
        rw [ofInt_toInt] at he
        exact ih xs outs _ (inv_transactEffect h he)
    | hasOutput v =>
      have hf : s.fault = none := fault_none_of_inv h (by simp [hs])
      rw [runHelper_hasOutput hf hs]
      have hinv := inv_transactEffect h (.acknowledge v hf hs)
      exact goodEnd_of_prefix (ih inputs (outs ++ [v]) _ hinv) (List.prefix_append _ _)
    | terminated =>
      have hf : s.fault = none := fault_none_of_inv h (by simp [hs])
      rw [runHelper_terminated hs]
      exact ⟨h, by simp [State.Final, hf, hs]⟩

/-- Settles O59: every run has a good end (`goodEnd_runHelper`), and the turns are the equations of `runHelper`. -/
theorem runHelperOutcomes : Obligations.RunHelperOutcomes := by
  refine ⟨fun fuel inputs outs s t e h hrun => ?ends, fun fuel inputs outs s v hf hs => runHelper_hasOutput hf hs,
    fun fuel x xs outs s d hf hs => runHelper_awaiting hf hs, fun fuel inputs outs s hs => runHelper_terminated hs⟩
  case ends =>
    have hgood := goodEnd_runHelper fuel inputs outs s h
    rw [hrun] at hgood
    exact hgood

/-! ### Systems of several instances (60_exceptions.md R190) -/

/-- A transaction on one place leaves every other place as it is. -/
theorem issueAt_getElem? (sys : System) (j k : Nat) (t : Transaction) :
    (System.issueAt sys j t)[k]? = if j = k then sys[k]?.map (advanceSlot t) else sys[k]? := by
  rw [System.issueAt, List.getElem?_modify]
  split <;> simp

/-- Settles O60, by induction on the schedule: its first transaction is in the place's own schedule exactly where it is on
that place. -/
theorem instancesAreIndependent : Obligations.InstancesAreIndependent := by
  intro sys schedule k
  induction schedule generalizing sys with
  | nil => simp [System.runSchedule]
  | cons e schedule ih =>
    have hrun : System.runSchedule sys (e :: schedule) = System.runSchedule (sys.issueAt e.1 e.2) schedule := rfl
    rw [hrun, ih, issueAt_getElem?]
    by_cases hk : e.1 = k
    · simp [hk, Function.comp_def]
    · simp [hk]

end Sys2Proof.Machine
